-- ==== Sys2Proof/Word.lean ====
section
/-! DEFINITION. Word.lean: the widths of the spec's parameter table (00_scope.md R7), as types. -/

namespace Sys2Proof

/-- One 32-bit command word, `CMD[31:0]` (R7 CMD_BITS, R14). -/
abbrev CmdWord := BitVec 32

/-- One 16-bit result word, `RESULT[15:0]` (R7 RESULT_BITS, COLOR_OUT_BITS, R15). -/
abbrev ResultWord := BitVec 16

/-- One 8-bit bitplane byte, H or L (R7 PLANE_BITS). -/
abbrev Plane := BitVec 8

/-- One 2-bit pixel colour index (R7 PIXEL_BITS, R12). -/
abbrev PixelIndex := BitVec 2

/-- One 15-bit CGB colour C (R7 COLOR_IN_BITS, R67). -/
abbrev CgbColor := BitVec 15

/-- Pixels in a row (R7 PIXELS_PER_ROW). -/
abbrev pixelsPerRow : Nat := 8

/-- Entries of the pixel table (R7 PIX_ENTRIES). -/
abbrev pixEntries : Nat := 65536

/-- Entries of the palette table (R7 PAL_ENTRIES). -/
abbrev palEntries : Nat := 32768

/-- An ordered pixel row `row[0..7]`, `row[0]` leftmost (R12). -/
abbrev PixelRow := Vector PixelIndex 8

/-- The nonzero fault codes, by name (R81). Code 0, NONE, is the absence of a fault. -/
inductive FaultCode where
  /-- Code 1: `CMD[31:24]` is not an assigned opcode (R82). -/
  | illegalOpcode
  /-- Code 2: the opcode is assigned but a reserved bit is 1 (R83). -/
  | reservedBits
  /-- Code 3: a decomposed colour channel outside [0,31] (R84); unreachable. -/
  | invariant
  deriving DecidableEq, Repr

end Sys2Proof
end

