-- ==== Sys2Proof/Syntax.lean ====
section
/-! DEFINITION. Syntax.lean: the commands of spec/opcode_table.json, one constructor per row. The operand types are
the operand fields of R45 and R46, so every value of a field is an operand and no other value exists. -/

namespace Sys2Proof

/-- The two operations of R44. The pseudo-instructions of R55 have no encoding of their own, so none stands here. -/
inductive Instr where
  /-- DECODE_ROW H, L (R59). `h` is the high bitplane and `l` the low one (R45). -/
  | decodeRow (h l : Plane)
  /-- CONVERT_COLOR C (R76), `c` the 15-bit CGB colour (R46). -/
  | convertColor (c : CgbColor)
  deriving DecidableEq, Repr

end Sys2Proof
end

