-- ==== Sys2Proof/AsmSyntax.lean ====
section
/-! DEFINITION. AsmSyntax.lean: what one line of assembly says (30_encoding.md R54, R55), with its operands as the
unsigned integers the line spells, in range or not. -/

namespace Sys2Proof

/-- The commands, pseudo-instructions and directive a line may spell (R54, R55). -/
inductive AsmStmt where
  /-- `DECODE_ROW h, l` (R54). -/
  | decodeRow (h l : Nat)
  /-- `CONVERT_COLOR c` (R54). -/
  | convertColor (c : Nat)
  /-- `PIXTAB i` (R55, R64). -/
  | pixtab (i : Nat)
  /-- `PALTAB c` (R55, R78). -/
  | paltab (c : Nat)
  /-- `CONVERT_RGB r, g, b` (R55, R78). -/
  | convertRgb (r g b : Nat)
  /-- `.word w` (R54): the raw word, "the only way to spell an illegal word". -/
  | word (w : Nat)
  deriving DecidableEq, Repr

/-- Why the assembler refuses a line (R54 "an assembly error"). -/
inductive AsmError where
  /-- An operand out of its range (R54, U11): refused, not truncated. -/
  | operandOutOfRange
  /-- A first word that is no mnemonic of R54 or R55. -/
  | unknownMnemonic
  /-- More or fewer operands than the mnemonic takes. -/
  | wrongOperandCount
  /-- An operand that is no unsigned integer literal of R54. -/
  | malformedOperand
  deriving DecidableEq, Repr

end Sys2Proof
end

