-- ==== Sys2Proof/WellFormed.lean ====
section
/-! DEFINITION. WellFormed.lean: what is well formed. An `Instr` is well formed by its types (R45, R46: "Every 16-bit
value of CMD[15:0] is a valid operand pair", "Every 15-bit value of CMD[14:0] is a valid colour"). What can be ill
formed is a command WORD (a reserved bit, an unassigned opcode) and a line of ASSEMBLY (an operand out of range). -/

namespace Sys2Proof

/-- The word matches DECODE_ROW's row of the opcode map: mask 0xFFFF0000, match 0x01000000 (R44). -/
def isDecodeRowWord (w : CmdWord) : Bool := w &&& 0xFFFF0000#32 == 0x01000000#32

/-- The word matches CONVERT_COLOR's row of the opcode map: mask 0xFFFF8000, match 0x02000000 (R44). -/
def isConvertColorWord (w : CmdWord) : Bool := w &&& 0xFFFF8000#32 == 0x02000000#32

/-- A legal command word: one that one of the two operations claims (R44, R51). -/
def legalWord (w : CmdWord) : Bool := isDecodeRowWord w || isConvertColorWord w

/-- Every operand of the statement is in the range R54 and R55 give it. -/
def AsmStmt.wf : AsmStmt → Bool
  | .decodeRow h l => decide (h ≤ 255) && decide (l ≤ 255)
  | .convertColor c => decide (c ≤ 32767)
  | .pixtab i => decide (i ≤ 65535)
  | .paltab c => decide (c ≤ 32767)
  | .convertRgb r g b => decide (r ≤ 31) && decide (g ≤ 31) && decide (b ≤ 31)
  | .word w => decide (w ≤ 0xFFFFFFFF)

end Sys2Proof
end

