-- ==== Sys2Proof/Decode.lean ====
section
/-! DEFINITION. Decode.lean: the total decoder of 30_encoding.md R50, and the encoder of R43 and R44. -/

namespace Sys2Proof

/-- `v[hi:lo]` of a command word, `n = hi - lo + 1` bits from bit `lo` (R8). -/
def cmdField (w : CmdWord) (lo n : Nat) : BitVec n := w.extractLsb' lo n

/-- OPC = CMD[31:24] (R42). -/
def opcField (w : CmdWord) : BitVec 8 := cmdField w 24 8

/-- RSV = CMD[23:16] (R42). -/
def rsvField (w : CmdWord) : BitVec 8 := cmdField w 16 8

/-- RSV15 = CMD[15], reserved in format CC (R43, R46). -/
def rsv15Field (w : CmdWord) : BitVec 1 := cmdField w 15 1

/-- H = CMD[15:8], format DR (R45). -/
def hField (w : CmdWord) : Plane := cmdField w 8 8

/-- L = CMD[7:0], format DR (R45). -/
def lField (w : CmdWord) : Plane := cmdField w 0 8

/-- C = CMD[14:0], format CC (R46). -/
def cField (w : CmdWord) : CgbColor := cmdField w 0 15

/-- What the decoder answers: an instruction, or the fault that rejects the word. -/
inductive Decoded where
  | instr (i : Instr)
  | fault (c : FaultCode)
  deriving DecidableEq, Repr

/-- The decoder of R50, total on all 2^32 words. The opcode is checked first, the reserved bits only under an
assigned opcode (R87). -/
def decode (w : CmdWord) : Decoded :=
  if opcField w = 0x01#8 then
    if rsvField w ≠ 0#8 then .fault .reservedBits
    else .instr (.decodeRow (hField w) (lField w))
  else if opcField w = 0x02#8 then
    if rsvField w ≠ 0#8 ∨ rsv15Field w ≠ 0#1 then .fault .reservedBits
    else .instr (.convertColor (cField w))
  else .fault .illegalOpcode

/-- The word of an instruction, field by field from the highest (R43). -/
def encode : Instr → CmdWord
  | .decodeRow h l => 0x01#8 ++ 0x00#8 ++ h ++ l
  | .convertColor c => 0x02#8 ++ 0x00#8 ++ 0#1 ++ c

/-- The instruction the decoder reads from the word whose bits are `w`, numbered as spec/opcode_table.json numbers
them. A command is one whole 32-bit word (R41, R31: no byte order arises); bits above `nbits` are 0. -/
def decodeTableWord (nbits w : Nat) : Option Instr :=
  match decode (BitVec.ofNat 32 (w % 2 ^ nbits)) with
  | .instr i => some i
  | .fault _ => none

end Sys2Proof
end

