-- ==== Sys2Proof/Machine/Operands.lean ====
section
/-! DEFINITION. Machine/Operands.lean: the operand forms of the two commands, taken apart. Every operand is an unsigned
field taken as is (R47). -/

namespace Sys2Proof.Machine

/-- Red, in the LOW five bits of the colour: `C & 0x1F` (R68). -/
def red5 (c : CgbColor) : Nat := c.toNat &&& 0x1F

/-- Green: `(C >> 5) & 0x1F` (R68). -/
def green5 (c : CgbColor) : Nat := (c.toNat >>> 5) &&& 0x1F

/-- Blue: `(C >> 10) & 0x1F` (R68). -/
def blue5 (c : CgbColor) : Nat := (c.toNat >>> 10) &&& 0x1F

/-- The pair index H·256 + L of PixRom (R45, R12). -/
def pairIndex (h l : Plane) : Nat := h.toNat * 256 + l.toNat

/-- H of a pair index: `i >> 8` (R26). -/
def pairHigh (i : Nat) : Plane := BitVec.ofNat 8 (i >>> 8)

/-- L of a pair index: `i & 0xFF` (R26). -/
def pairLow (i : Nat) : Plane := BitVec.ofNat 8 (i &&& 0xFF)

/-- The colour whose channels are given separately: `(b << 10) | (g << 5) | r` (R55, R78). -/
def rgbColor (r g b : Nat) : Nat := (b <<< 10) ||| (g <<< 5) ||| r

end Sys2Proof.Machine
end

