-- ==== Sys2Proof/Machine/State.lean ====
section
/-! DEFINITION. Machine/State.lean: what a run keeps (10_state.md R21) and what the host has still to do
(70_reset_and_hazards.md R106). The block itself holds no architectural state (R13, R22): CMD is an input, RESULT and
FAULT are functions of it, and the two tables are constants, so none of them is a field. -/

namespace Sys2Proof.Machine

/-- The response to one command (R15, R18): a RESULT with FAULT = 0, or a fault code and no RESULT (R86). -/
inductive Response where
  /-- FAULT = 0 and RESULT carries this value. -/
  | result (v : ResultWord)
  /-- FAULT is this code's and RESULT carries no value. -/
  | fault (c : FaultCode)
  deriving DecidableEq, Repr

/-- One (command, response) pair of the response log (R21). -/
structure LogEntry where
  cmd : CmdWord
  response : Response
  deriving DecidableEq, Repr

/-- One (command word, code) pair of the fault record (R21, R85). -/
structure FaultEntry where
  cmd : CmdWord
  code : FaultCode
  deriving DecidableEq, Repr

/-- What the host does with CMD between presenting a command and taking its response (R103, R104). -/
inductive HostConduct where
  /-- CMD is held stable until RESULT and FAULT have been taken, and they are taken when ready. -/
  | heldUntilTaken
  /-- CMD changes before the response has been taken (R103, U4). -/
  | changedBeforeTaken
  /-- The response is taken before `latency` has elapsed (R104, U4). -/
  | takenBeforeReady
  deriving DecidableEq, Repr

/-- One command presented on port CMD. Bit i of `word` says something only where bit i of `undriven` is 0 (R23). -/
structure Presentation where
  word : CmdWord
  undriven : BitVec 32
  conduct : HostConduct
  deriving DecidableEq, Repr

/-- The two interactions of the host interface (R106). Log entries 1 and 4. -/
inductive HostAction where
  /-- "present a command": one 32-bit CMD. -/
  | present (p : Presentation)
  /-- "read a result": the host uses RESULT of the last response. -/
  | useResult
  deriving DecidableEq, Repr

/-- The state of a run. Every field is bookkeeping or the host's; the block has no state of its own (R13, R21). -/
structure State where
  /-- What the host has still to do, first first (R106, R107; log entry 1). -/
  inputs : List HostAction
  /-- The response log, oldest first (R21). -/
  log : List LogEntry
  /-- The fault record, oldest first, never cleared (R21, R85). -/
  faultRecord : List FaultEntry
  deriving DecidableEq, Repr

/-- What stops a run with a fault. A FAULT code of the block is not here: it is a response, and the run goes on (R90, R107). -/
inductive Fault where
  /-- Raised by the host's use of RESULT when FAULT is not 0 ("reading it faults", R86, U2). Safe: the hardware drives
  some bits and goes on. -/
  | resultHasNoValue
  deriving DecidableEq, Repr

/-- What the model refuses. -/
inductive Refusal where
  /-- Raised by `exec` for an instruction that has no meaning yet; none is left. Safe. -/
  | notModelled (mnemonic : String)
  /-- Raised when a bit of CMD is undriven: "this spec gives that case no meaning" (R23, U3). Safe. -/
  | undrivenCommandBits
  /-- Raised when CMD changes before its response is taken: "a model gives it none" (R103, U4). Safe. -/
  | commandNotHeld
  /-- Raised when a response is taken before `latency` has elapsed: "that case is not admitted" (R104, U4). Safe. -/
  | responseTakenEarly
  /-- Raised when the host uses RESULT and no command was presented in the run (log entry 4). Safe. -/
  | noResponseYet
  deriving DecidableEq, Repr

/-- The start of every run: an empty log, an empty fault record (R22) and nothing presented (log entry 1). -/
def State.reset : State where
  inputs := []
  log := []
  faultRecord := []

end Sys2Proof.Machine
end

