-- ==== Sys2Proof/Machine/Flags.lean ====
section
/-! DEFINITION. Machine/Flags.lean: the block has no condition flags (R17). Its only status output is port FAULT[1:0]
(R15, R81), computed here whole, with port RESULT beside it. -/

namespace Sys2Proof.Machine

/-- The value driven on FAULT for each named fault (R81). -/
def faultCodeBits : FaultCode → BitVec 2
  | .illegalOpcode => 1#2
  | .reservedBits => 2#2
  | .invariant => 3#2

/-- FAULT[1:0] of a response: 0 when the command was legal (R15, R81). -/
def Response.faultBits : Response → BitVec 2
  | .result _ => 0#2
  | .fault c => faultCodeBits c

/-- RESULT[15:0] of a response, which carries no value when FAULT is not 0 (R15, R86). -/
def Response.resultBits : Response → Option ResultWord
  | .result v => some v
  | .fault _ => none

/-- What a log entry puts into the fault record: its command and code where FAULT is not 0 (R21, R85). -/
def LogEntry.faultEntry (e : LogEntry) : Option FaultEntry :=
  match e.response with
  | .result _ => none
  | .fault c => some ⟨e.cmd, c⟩

end Sys2Proof.Machine
end

