-- ==== Sys2Proof/Machine/Ops.lean ====
section
/-! DEFINITION. Machine/Ops.lean: the operations every command shares: giving a response, and raising a fault. Nothing
in the block can be written (R10: MemWrite does not exist), so these touch the run's bookkeeping only. -/

namespace Sys2Proof.Machine

/-- FAULT = 0 with a result: the response is logged (R15, R21, R104: one response per command, in order). -/
def State.complete (s : State) (w : CmdWord) (v : ResultWord) : State :=
  { s with log := s.log ++ [⟨w, .result v⟩] }

/-- Taking a fault, the one shared operation (R80, R85, R89): FAULT gives the code for this command, the pair (command
word, code) enters the fault record, nothing is saved in the block, no mode changes and control goes nowhere. There
is no return from it (R90): the next command gets its normal response. -/
def State.raiseFault (s : State) (w : CmdWord) (c : FaultCode) : State :=
  { s with log := s.log ++ [⟨w, .fault c⟩], faultRecord := s.faultRecord ++ [⟨w, c⟩] }

/-- The run after the response `r` to the command word `w`. -/
def State.deliver (s : State) (w : CmdWord) (r : Response) : State :=
  match r with
  | .result v => s.complete w v
  | .fault c => s.raiseFault w c

end Sys2Proof.Machine
end

