-- ==== Sys2Proof/Machine/Color.lean ====
section
/-! DEFINITION. Machine/Color.lean: the colour conversion family (41_color_convert.md). Channels are naturals, so the
range check of R69 is made and would raise INVARIANT. -/

namespace Sys2Proof.Machine

/-- Rounding of the rational `n / d` to the nearest integer, an exact half away from zero (R9, R70): `floor(n/d + 1/2)`. -/
def roundHalfAway (n d : Nat) : Nat := (2 * n + d) / (2 * d)

/-- G6, the green rescale in the exact integer form: `floor((63 * G5 + 15) / 31)` (R71, D9). -/
def green6 (g5 : Nat) : Nat := (63 * g5 + 15) / 31

/-- The composition `(R5 << 11) | (G6 << 5) | B5` (R75). -/
def composeRgb565 (r5 g6 b5 : Nat) : ResultWord := BitVec.ofNat 16 ((r5 <<< 11) ||| (g6 <<< 5) ||| b5)

/-- The conversion of decomposed channels, with the source's assertion: a channel outside [0,31] raises INVARIANT and
is never clamped or wrapped (R69, R84). -/
def convertChannels (r5 g5 b5 : Nat) : Response :=
  if r5 ≤ 31 ∧ g5 ≤ 31 ∧ b5 ≤ 31 then .result (composeRgb565 r5 (green6 g5) b5) else .fault .invariant

/-- rgb565(C) (R11, R75). -/
def rgb565 (c : CgbColor) : ResultWord := composeRgb565 (red5 c) (green6 (green5 c)) (blue5 c)

/-- The response of CONVERT_COLOR (R76). -/
def convertColorResponse (c : CgbColor) : Response := convertChannels (red5 c) (green5 c) (blue5 c)

/-- CONVERT_COLOR C (R76). -/
def execConvertColor (c : CgbColor) (s : State) : Host.Outcome State Fault Refusal :=
  .next (s.deliver (encode (.convertColor c)) (convertColorResponse c))

/-- C back from RESULT: `(RESULT[4:0] << 10) | ((RESULT[10:5] >> 1) << 5) | RESULT[15:11]` (R79). The host's inverse. -/
def colorOf (r : ResultWord) : CgbColor :=
  ((r.extractLsb' 0 5).setWidth 15 <<< 10) ||| (((r.extractLsb' 5 6) >>> 1).setWidth 15 <<< 5) |||
    (r.extractLsb' 11 5).setWidth 15

end Sys2Proof.Machine
end

