-- ==== Sys2Proof/Machine/PixelRow.lean ====
section
/-! DEFINITION. Machine/PixelRow.lean: the pixel-row decode family (40_pixel_decode.md). -/

namespace Sys2Proof.Machine

/-- The pixel at position `p` of the pair (H, L): `(((H >> (7 - p)) & 1) << 1) | ((L >> (7 - p)) & 1)` (R58). -/
def pixel (h l : Plane) (p : Nat) : PixelIndex :=
  ((((h >>> (7 - p)) &&& 1#8) <<< 1) ||| ((l >>> (7 - p)) &&& 1#8)).setWidth 2

/-- row[0..7], `row[p] <- pixel(H, L, p)` (R59). -/
def pixelRow (h l : Plane) : PixelRow :=
  #v[pixel h l 0, pixel h l 1, pixel h l 2, pixel h l 3, pixel h l 4, pixel h l 5, pixel h l 6, pixel h l 7]

/-- The packing of a row into RESULT, pixel 0 at the top (R52). -/
def packRow (row : PixelRow) : ResultWord :=
  (row[0].setWidth 16 <<< 14) ||| (row[1].setWidth 16 <<< 12) ||| (row[2].setWidth 16 <<< 10) |||
  (row[3].setWidth 16 <<< 8) ||| (row[4].setWidth 16 <<< 6) ||| (row[5].setWidth 16 <<< 4) |||
  (row[6].setWidth 16 <<< 2) ||| row[7].setWidth 16

/-- Lane `p` of a packed row: `(RESULT >> (14 - 2*p)) & 3` (R52). -/
def lane (r : ResultWord) (p : Nat) : PixelIndex := ((r >>> (14 - 2 * p)) &&& 3#16).setWidth 2

/-- RESULT of DECODE_ROW H, L (R59). -/
def packedRow (h l : Plane) : ResultWord := packRow (pixelRow h l)

/-- The response of DECODE_ROW: FAULT 0 for every pair ("Exceptions. None once decoded", R59). -/
def decodeRowResponse (h l : Plane) : Response := .result (packedRow h l)

/-- DECODE_ROW H, L (R59). -/
def execDecodeRow (h l : Plane) (s : State) : Host.Outcome State Fault Refusal :=
  .next (s.deliver (encode (.decodeRow h l)) (decodeRowResponse h l))

/-- H back from a packed row: `H[i] = RESULT[2i+1]` (R62). The host's inverse, no command. -/
def highPlane (r : ResultWord) : Plane := BitVec.ofFnLE fun i : Fin 8 => r.getLsbD (2 * i.val + 1)

/-- L back from a packed row: `L[i] = RESULT[2i]` (R62). The host's inverse, no command. -/
def lowPlane (r : ResultWord) : Plane := BitVec.ofFnLE fun i : Fin 8 => r.getLsbD (2 * i.val)

/-- The two bits of a lane exchanged: 0, 2, 1, 3 for 0, 1, 2, 3 (R63). -/
def swap2 (v : PixelIndex) : PixelIndex := v.extractLsb' 0 1 ++ v.extractLsb' 1 1

end Sys2Proof.Machine
end

