-- ==== Sys2Proof/Machine/Dispatch.lean ====
section
/-! DEFINITION. Machine/Dispatch.lean: one arm per command. -/

namespace Sys2Proof.Machine

def exec (i : Instr) (s : State) : Host.Outcome State Fault Refusal :=
  match i with
  | .decodeRow h l => Sys2Proof.Machine.execDecodeRow h l s
  | .convertColor c => Sys2Proof.Machine.execConvertColor c s

end Sys2Proof.Machine
end

