-- ==== Sys2Proof/Config.lean ====
section
/-! DEFINITION. Config.lean: the OPEN parameters of 00_scope.md R7, which an implementation or a host fixes and the
spec does not. They have no body, so nothing can be proved of their values. No rule of the block's function depends
on one (R7). -/

namespace Sys2Proof

/-- The order in which a host stores the two bytes of a 16-bit word (R31, D12). -/
inductive ByteOrder where
  | bigEndian
  | littleEndian
  deriving DecidableEq, Repr, Inhabited

/-- Cycles from command to result (R104, D23, U5). OPEN. -/
opaque Config.latency : Nat

/-- How a host stores a 16-bit result or table entry in byte memory (R31, D12, U6). OPEN. -/
opaque Config.hostByteOrder : ByteOrder

/-- `pix_elem_bits` less 2. OPEN, so every width of at least 2 is possible and no other. -/
opaque Config.pixElemExtraBits : Nat

/-- Element width of the emitted pixel table, software only (R30, D13, U7): at least 2. -/
def Config.pixElemBits : Nat := 2 + Config.pixElemExtraBits

end Sys2Proof
end

