-- ==== Sys2Proof/Machine/HostPort.lean ====
section
/-! DEFINITION. Machine/HostPort.lean: the host's side of the interface (70_reset_and_hazards.md R103, R104, R106). -/

namespace Sys2Proof.Machine

/-- The conduct of a host that presents a command at cycle 0, holds CMD stable up to cycle `heldUntil` and takes the
response at cycle `takenAt`, on a block of the given latency (R103, R104). Log entry 6. -/
def HostConduct.ofCycles (latency heldUntil takenAt : Nat) : HostConduct :=
  if takenAt < latency then .takenBeforeReady
  else if heldUntil < takenAt then .changedBeforeTaken
  else .heldUntilTaken

/-- A command whose bits are all driven, timed in cycles on this implementation. -/
def Presentation.timed (w : CmdWord) (heldUntil takenAt : Nat) : Presentation :=
  ⟨w, 0#32, HostConduct.ofCycles Config.latency heldUntil takenAt⟩

/-- A command presented as R103 asks: every bit driven, held until its response is taken. -/
def Presentation.proper (w : CmdWord) : Presentation := ⟨w, 0#32, .heldUntilTaken⟩

/-- Why a presentation is not admitted, if it is not (R23, R103, R104; log entry 5 for the order of the checks). -/
def Presentation.objection (p : Presentation) : Option Refusal :=
  if p.undriven ≠ 0#32 then some .undrivenCommandBits
  else match p.conduct with
    | .heldUntilTaken => none
    | .changedBeforeTaken => some .commandNotHeld
    | .takenBeforeReady => some .responseTakenEarly

/-- RESULT of the last response of the run, where one was given and it carries a value (R106). -/
def State.lastResult (s : State) : Option ResultWord := s.log.getLast?.bind fun e => e.response.resultBits

/-- The host uses RESULT of the last response (R106). "A model gives RESULT no value, and a claim that reads RESULT of
a faulting command faults" (R86). No read has a side effect (R33). -/
def hostUseResult (s : State) : Host.Outcome State Fault Refusal :=
  match s.log.getLast? with
  | none => .refused .noResponseYet
  | some e =>
    match e.response with
    | .result _ => .next s
    | .fault _ => .fault .resultHasNoValue

/-- The action presents a command, so the host will take a response to it (R106). -/
def HostAction.presentsCommand : HostAction → Bool
  | .present _ => true
  | .useResult => false

/-- The host's list of commands, properly presented (R107). -/
def commandList (ws : List CmdWord) : List HostAction := ws.map fun w => .present (.proper w)

end Sys2Proof.Machine
end

