-- ==== Sys2Proof/Machine/Present.lean ====
section
/-! DEFINITION. Machine/Present.lean: what the block does with one host action (R50, R106). -/

namespace Sys2Proof.Machine

/-- The block's answer to one admitted 32-bit word: the decoded command's effect, or the fault that rejects it
(R50). A faulting word is a NEXT state: the fault is this command's response and the run goes on (R80, R90, R107). -/
def runWord (w : CmdWord) (s : State) : Host.Outcome State Fault Refusal :=
  match decode w with
  | .instr i => exec i s
  | .fault c => .next (s.raiseFault w c)

/-- A presented command, admitted or refused (R23, R103). -/
def hostPresent (p : Presentation) (s : State) : Host.Outcome State Fault Refusal :=
  match p.objection with
  | some r => .refused r
  | none => runWord p.word s

/-- One interaction of R106. -/
def hostAct (a : HostAction) (s : State) : Host.Outcome State Fault Refusal :=
  match a with
  | .present p => hostPresent p s
  | .useResult => hostUseResult s

/-- The host's list with the word `w` as the next command, in place of what stood first. -/
def fetchSlot (inputs : List HostAction) (w : CmdWord) : List HostAction :=
  .present (.proper w) :: inputs.tail

end Sys2Proof.Machine
end

