-- ==== Sys2Proof/Machine/Step.lean ====
section
/-! DEFINITION. Machine/Step.lean: one step of a run. The block has no program counter and fetches nothing (R16): the
step takes the host's next action. -/

namespace Sys2Proof.Machine

/-- One step: the host's first action is taken from the list and carried out. With nothing left the block is idle and
nothing changes (log entry 2). -/
def step (s : State) : Host.Outcome State Fault Refusal :=
  match s.inputs with
  | [] => .next s
  | a :: rest => hostAct a { s with inputs := rest }

/-- `s` with the word `w` (bits above `nbits` zero) as the command the host presents next (log entry 1). -/
def State.withFetchWord (s : State) (nbits w : Nat) : State :=
  { s with inputs := fetchSlot s.inputs (BitVec.ofNat 32 (w % 2 ^ nbits)) }

end Sys2Proof.Machine
end

