-- ==== Sys2Proof/Machine/Assembler.lean ====
section
/-! DEFINITION. Machine/Assembler.lean: the assembler of 30_encoding.md R54 and R55 and its disassembler, over lists of
characters. What R54 leaves open (white space, letter case outside mnemonics, empty lines) is log entry 11. -/

namespace Sys2Proof.Machine

/-- The base command, or raw word, a statement expands to (R55). -/
def expandStmt : AsmStmt → AsmStmt
  | .pixtab i => .decodeRow (i >>> 8) (i &&& 0xFF)
  | .paltab c => .convertColor c
  | .convertRgb r g b => .convertColor (rgbColor r g b)
  | st => st

/-- The word of a base statement whose operands are in range. -/
def baseWord : AsmStmt → CmdWord
  | .decodeRow h l => encode (.decodeRow (BitVec.ofNat 8 h) (BitVec.ofNat 8 l))
  | .convertColor c => encode (.convertColor (BitVec.ofNat 15 c))
  | .word w => BitVec.ofNat 32 w
  | .pixtab i => BitVec.ofNat 32 (0x01000000 ||| i)
  | .paltab c => BitVec.ofNat 32 (0x02000000 ||| c)
  | .convertRgb r g b => BitVec.ofNat 32 (0x02000000 ||| rgbColor r g b)

/-- The word a statement assembles to: an operand out of range "is an assembly error. The assembler refuses it and does
not truncate it" (R54). -/
def assemble (st : AsmStmt) : Except AsmError CmdWord :=
  if st.wf then .ok (baseWord (expandStmt st)) else .error .operandOutOfRange

/-- The base command a word stands for; an illegal word is spelled `.word` (R54, R55). -/
def disassemble (w : CmdWord) : AsmStmt :=
  match decode w with
  | .instr (.decodeRow h l) => .decodeRow h.toNat l.toNat
  | .instr (.convertColor c) => .convertColor c.toNat
  | .fault _ => .word w.toNat

/-- Space, tab or carriage return. -/
def isBlank (c : Char) : Bool := c == ' ' || c == '\t' || c == '\r'

/-- Blanks taken off both ends. -/
def trimBlanks (cs : List Char) : List Char :=
  ((cs.dropWhile isBlank).reverse.dropWhile isBlank).reverse

/-- "A `;` starts a comment that runs to the end of the line" (R54). -/
def stripComment (cs : List Char) : List Char := cs.takeWhile fun c => c != ';'

/-- The pieces of a list between separators; `n` separators make `n + 1` pieces. -/
def splitAtChar (sep : Char) : List Char → List (List Char)
  | [] => [[]]
  | c :: cs =>
    if c = sep then [] :: splitAtChar sep cs
    else match splitAtChar sep cs with
      | [] => [[c]]
      | piece :: more => (c :: piece) :: more

/-- An ASCII letter's capital; "Mnemonics are case-insensitive" (R54). -/
def upperChar (c : Char) : Char :=
  if 'a'.toNat ≤ c.toNat ∧ c.toNat ≤ 'z'.toNat then Char.ofNat (c.toNat - 32) else c

/-- The value of a digit in the given base. -/
def digitValue (base : Nat) (c : Char) : Option Nat :=
  let v :=
    if '0'.toNat ≤ c.toNat ∧ c.toNat ≤ '9'.toNat then some (c.toNat - '0'.toNat)
    else if 'a'.toNat ≤ c.toNat ∧ c.toNat ≤ 'f'.toNat then some (c.toNat - 'a'.toNat + 10)
    else if 'A'.toNat ≤ c.toNat ∧ c.toNat ≤ 'F'.toNat then some (c.toNat - 'A'.toNat + 10)
    else none
  v.filter fun d => decide (d < base)

/-- The value of digits read after `acc`. -/
def digitsValue (base : Nat) : Nat → List Char → Option Nat
  | acc, [] => some acc
  | acc, c :: cs => (digitValue base c).bind fun d => digitsValue base (acc * base + d) cs

/-- A number in the given base, with at least one digit. -/
def numberIn (base : Nat) (cs : List Char) : Option Nat :=
  if cs.isEmpty then none else digitsValue base 0 cs

/-- An unsigned integer literal "in decimal, `0x` hexadecimal or `0b` binary" (R54). -/
def parseNumber (cs : List Char) : Option Nat :=
  match cs with
  | '0' :: 'x' :: ds => numberIn 16 ds
  | '0' :: 'b' :: ds => numberIn 2 ds
  | ds => numberIn 10 ds

/-- The operands of a line, separated by commas. -/
def parseOperands (cs : List Char) : Option (List Nat) :=
  if (trimBlanks cs).isEmpty then some []
  else (splitAtChar ',' cs).mapM fun piece => parseNumber (trimBlanks piece)

/-- The mnemonics of R54 and R55 and the directive `.word`. -/
inductive Mnemonic where
  | decodeRow
  | convertColor
  | pixtab
  | paltab
  | convertRgb
  | word
  deriving DecidableEq, Repr

/-- The first word of a line, letter case ignored. -/
def parseMnemonic (cs : List Char) : Option Mnemonic :=
  let m := cs.map upperChar
  if m = "DECODE_ROW".toList then some .decodeRow
  else if m = "CONVERT_COLOR".toList then some .convertColor
  else if m = "PIXTAB".toList then some .pixtab
  else if m = "PALTAB".toList then some .paltab
  else if m = "CONVERT_RGB".toList then some .convertRgb
  else if m = ".WORD".toList then some .word
  else none

/-- The statement of a mnemonic and its operands. -/
def makeStmt (m : Mnemonic) (ops : List Nat) : Except AsmError AsmStmt :=
  match m, ops with
  | .decodeRow, [h, l] => .ok (.decodeRow h l)
  | .convertColor, [c] => .ok (.convertColor c)
  | .pixtab, [i] => .ok (.pixtab i)
  | .paltab, [c] => .ok (.paltab c)
  | .convertRgb, [r, g, b] => .ok (.convertRgb r g b)
  | .word, [w] => .ok (.word w)
  | _, _ => .error .wrongOperandCount

/-- What one line says; a line of blanks and comment says nothing. -/
def parseLine (line : List Char) : Except AsmError (Option AsmStmt) :=
  let body := trimBlanks (stripComment line)
  if body.isEmpty then .ok none
  else
    match parseMnemonic (body.takeWhile fun c => !isBlank c) with
    | none => .error .unknownMnemonic
    | some m =>
      match parseOperands (body.dropWhile fun c => !isBlank c) with
      | none => .error .malformedOperand
      | some ops => (makeStmt m ops).map some

/-- The word of one line, "one command per line" (R54). -/
def assembleLine (line : List Char) : Except AsmError (Option CmdWord) :=
  match parseLine line with
  | .error e => .error e
  | .ok none => .ok none
  | .ok (some st) => (assemble st).map some

/-- The command list of a text, refused at its first bad line. -/
def assembleText (text : List Char) : Except AsmError (List CmdWord) :=
  ((splitAtChar '\n' text).mapM assembleLine).map fun ws => ws.filterMap id

/-- The hexadecimal digit of a number below 16. -/
def hexChar (n : Nat) : Char :=
  if n < 10 then Char.ofNat ('0'.toNat + n) else Char.ofNat ('A'.toNat + (n - 10))

/-- The last `k` hexadecimal digits of `n`, highest first. -/
def hexDigits : Nat → Nat → List Char
  | 0, _ => []
  | k + 1, n => hexDigits k (n / 16) ++ [hexChar (n % 16)]

/-- One line of disassembly (R55 "A disassembler prints the base instruction"); the number format is log entry 12. -/
def disassembleLine (w : CmdWord) : List Char :=
  match decode w with
  | .instr (.decodeRow h l) =>
    "DECODE_ROW 0x".toList ++ hexDigits 2 h.toNat ++ ", 0x".toList ++ hexDigits 2 l.toNat
  | .instr (.convertColor c) => "CONVERT_COLOR 0x".toList ++ hexDigits 4 c.toNat
  | .fault _ => ".word 0x".toList ++ hexDigits 8 w.toNat

end Sys2Proof.Machine
end

