-- ==== Sys2Proof/Machine/Formulas.lean ====
section
/-! DEFINITION. Machine/Formulas.lean: the three derived functions of 00_scope.md R11 as the spec writes them, over
unsigned integers of unbounded width (R9). The machine does not call them: the statements hold its fixed-width
datapaths against them. -/

namespace Sys2Proof.Machine

/-- `pixel(H, L, p) = (((H >> (7 - p)) & 1) << 1) | ((L >> (7 - p)) & 1)` (R11, R58). -/
def pixelFormula (h l p : Nat) : Nat := (((h >>> (7 - p)) &&& 1) <<< 1) ||| ((l >>> (7 - p)) &&& 1)

/-- RESULT of DECODE_ROW: the row packed with pixel p at bits [15-2p : 14-2p] (R52, R59). -/
def rowFormula (h l : Nat) : Nat :=
  (pixelFormula h l 0 <<< 14) ||| (pixelFormula h l 1 <<< 12) ||| (pixelFormula h l 2 <<< 10) |||
  (pixelFormula h l 3 <<< 8) ||| (pixelFormula h l 4 <<< 6) ||| (pixelFormula h l 5 <<< 4) |||
  (pixelFormula h l 6 <<< 2) ||| pixelFormula h l 7

/-- `G6(G5) = round(G5 * 63 / 31)`, the exact rational rounded with ties away from zero (R11, R70). -/
def g6Formula (g5 : Nat) : Nat := roundHalfAway (g5 * 63) 31

/-- `rgb565(C) = ((C & 0x1F) << 11) | (G6((C >> 5) & 0x1F) << 5) | ((C >> 10) & 0x1F)` (R11, R75). -/
def rgb565Formula (c : Nat) : Nat :=
  ((c &&& 0x1F) <<< 11) ||| (g6Formula ((c >>> 5) &&& 0x1F) <<< 5) ||| ((c >>> 10) &&& 0x1F)

end Sys2Proof.Machine
end

