-- ==== Sys2Proof/Machine/Instances.lean ====
section
/-! DEFINITION. Machine/Instances.lean: any number of instances of the block, sharing nothing (R95, D19). Each has its
own host list and log. Which instance moves next is the argument `k`, so every interleaving is one of these (log
entry 13). -/

namespace Sys2Proof.Machine

/-- The instances side by side. -/
abbrev System := List State

/-- Instance `k` takes one step; a number no instance has moves nothing. -/
def System.stepAt (sys : System) (k : Nat) : Host.Outcome System Fault Refusal :=
  match sys[k]? with
  | none => .next sys
  | some s =>
    match step s with
    | .next t => .next (sys.set k t)
    | .fault f => .fault f
    | .refused r => .refused r

end Sys2Proof.Machine
end

