-- ==== Sys2Proof/Machine/Tables.lean ====
section
/-! DEFINITION. Machine/Tables.lean: the two read-only address spaces (20_memory.md). They are constants, the same at
all times and in every instance (R20), so they are functions and no part of State. -/

namespace Sys2Proof.Machine

/-- The two address spaces (R24). -/
inductive Table where
  | pix
  | pal
  deriving DecidableEq, Repr

/-- Entries of a table (R26, R27, R34). -/
def Table.entries : Table → Nat
  | .pix => pixEntries
  | .pal => palEntries

/-- `PixRom(i)[p] = pixel(i >> 8, i & 0xFF, p)` (R26). -/
def pixRomLane (i p : Nat) : PixelIndex := pixel (pairHigh i) (pairLow i) p

/-- PixRom(i) as a 16-bit word in the packing of R52 (R26). -/
def pixRom (i : Nat) : ResultWord := packedRow (pairHigh i) (pairLow i)

/-- `PalRom(c) = rgb565(c)` (R27). -/
def palRom (c : Nat) : ResultWord := rgb565 (BitVec.ofNat 15 c)

/-- Entry `i` of a table. -/
def Table.entry : Table → Nat → ResultWord
  | .pix, i => pixRom i
  | .pal, c => palRom c

/-- `MemRead(addr, n)`: the whole entry, n = 2 bytes, at an index inside the table and nothing else (R10, R25, R32). -/
def memRead (t : Table) (addr n : Nat) : Option ResultWord :=
  if n = 2 ∧ addr < t.entries then some (t.entry addr) else none

/-- The ROM image: entries in ascending index order, index 0 first (R29). -/
def romImage (t : Table) : List ResultWord := (List.range t.entries).map t.entry

/-- An implementation that stores the table holds it correctly: the image of R29, bit for bit (R101, D22). -/
def storedCorrectly (t : Table) (img : List ResultWord) : Prop := img = romImage t

/-- One element of the emitted pixel table, `bits` wide (R30, D13, software only). -/
def pixElement (bits : Nat) (v : PixelIndex) : BitVec bits := v.setWidth bits

/-- The two bytes a host stores for a 16-bit word, lowest address first, in the order `o` (R31, D12). -/
def hostBytes (o : ByteOrder) (v : ResultWord) : List (BitVec 8) :=
  match o with
  | .bigEndian => [v.extractLsb' 8 8, v.extractLsb' 0 8]
  | .littleEndian => [v.extractLsb' 0 8, v.extractLsb' 8 8]

/-- The word a host reads back from the two bytes it stored (R31, D12). -/
def hostWord (o : ByteOrder) : List (BitVec 8) → Option ResultWord
  | [a, b] => some (match o with
    | .bigEndian => a ++ b
    | .littleEndian => b ++ a)
  | _ => none

end Sys2Proof.Machine
end

