-- ==== Sys2Proof/Machine/Respond.lean ====
section
/-! DEFINITION. Machine/Respond.lean: the block as the spec defines it, a total function from a command word to a
response (R13, R18), and its two output ports (R15, R22). -/

namespace Sys2Proof.Machine

/-- The response of a decoded command (R59, R76). -/
def instrResponse : Instr → Response
  | .decodeRow h l => decodeRowResponse h l
  | .convertColor c => convertColorResponse c

/-- `respond : UInt32 → (FAULT = 0, RESULT) or (FAULT = code, no RESULT)` (R18). -/
def respond (w : CmdWord) : Response :=
  match decode w with
  | .instr i => instrResponse i
  | .fault c => .fault c

/-- Port FAULT while `w` is on CMD (R15, R22: at all times, during and after reset). -/
def faultPort (w : CmdWord) : BitVec 2 := (respond w).faultBits

/-- Port RESULT while `w` is on CMD; no value where FAULT is not 0 (R15, R86). -/
def resultPort (w : CmdWord) : Option ResultWord := (respond w).resultBits

/-- The pair (command, response) of the response log (R21). -/
def logged (w : CmdWord) : LogEntry := ⟨w, respond w⟩

end Sys2Proof.Machine
end

