-- ==== Sys2Proof/Safety.lean ====
section
/-! DEFINITION. Safety.lean: what a run is and what a successful run is (70_reset_and_hazards.md R107, 10_state.md R21). -/

namespace Sys2Proof.Machine

/-- The run has ended: "it ends when the host has taken the response to the last command in the list" (R107), that is,
when no command is left to present. A use of RESULT (R106) may still come after that response. -/
def State.ended (s : State) : Bool := s.inputs.all fun a => !a.presentsCommand

/-- "A run with a non-empty fault record is failed" (R107), ended or not: the record is never cleared (R21). -/
def State.failed (s : State) : Bool := !s.faultRecord.isEmpty

/-- "A run is successful when its fault record is empty" (R107), said of a run that has ended (log entry 18). -/
def State.successful (s : State) : Bool := s.ended && s.faultRecord.isEmpty

/-- The start of the run over the command list `ws` (R107): reset with the host's list put in. -/
def State.startOf (ws : List CmdWord) : State := { State.reset with inputs := commandList ws }

/-- Where a run over `ws` that met no fault or refusal of the host's making ends: the log pairs every command with its
response in order, and the fault record holds the faulting ones (R21, R37, R104). -/
def State.endOf (ws : List CmdWord) : State where
  inputs := []
  log := ws.map logged
  faultRecord := (ws.map logged).filterMap LogEntry.faultEntry

/-- The bookkeeping tells the truth: every entry of the log holds the block's response to its command, and the fault
record is what the log says of faults (R18, R21). -/
structure State.Truthful (s : State) : Prop where
  responses : ∀ e ∈ s.log, e.response = respond e.cmd
  record : s.faultRecord = s.log.filterMap LogEntry.faultEntry

end Sys2Proof.Machine
end

