-- ==== Sys2Proof/Certificates/Slice0/Obligations.lean ====
section
/-! DEFINITION. Certificates/Slice0/Obligations.lean: the statements for the provers. Each docstring names the rules
of spec/ it rests on. -/

open Sys2Proof Sys2Proof.Machine

/-! ### Encoding -/

/-- The worked encodings of R56: each assembly line gives its word, and the last three words fault. -/
def Obligations.WorkedEncodingsOfTheSpec : Prop :=
  assembleLine "DECODE_ROW 0x80, 0x40".toList = .ok (some 0x01008040#32) ∧
  assembleLine "DECODE_ROW 0xFF, 0x00".toList = .ok (some 0x0100FF00#32) ∧
  assembleLine "PIXTAB 0xFF00".toList = .ok (some 0x0100FF00#32) ∧
  assembleLine "CONVERT_COLOR 0x7FFF".toList = .ok (some 0x02007FFF#32) ∧
  assembleLine "CONVERT_RGB 31, 0, 0".toList = .ok (some 0x0200001F#32) ∧
  assembleLine "CONVERT_RGB 0, 16, 0".toList = .ok (some 0x02000200#32) ∧
  assembleLine "CONVERT_RGB 0, 0, 31".toList = .ok (some 0x02007C00#32) ∧
  decode 0x01008040#32 = .instr (.decodeRow 0x80#8 0x40#8) ∧
  decode 0x0100FF00#32 = .instr (.decodeRow 0xFF#8 0x00#8) ∧
  decode 0x02007FFF#32 = .instr (.convertColor 0x7FFF#15) ∧
  decode 0x0200001F#32 = .instr (.convertColor 0x001F#15) ∧
  decode 0x02000200#32 = .instr (.convertColor 0x0200#15) ∧
  decode 0x02007C00#32 = .instr (.convertColor 0x7C00#15) ∧
  faultPort 0x02008000#32 = 2#2 ∧ faultPort 0x01010000#32 = 2#2 ∧ faultPort 0x00000000#32 = 1#2

/-- The opcode map of R44: which words are which operation, that no word is both, and which opcodes are illegal. -/
def Obligations.DecodingFollowsTheOpcodeMap : Prop :=
  (∀ w : CmdWord, (∃ h l, decode w = .instr (.decodeRow h l)) ↔ w &&& 0xFFFF0000#32 = 0x01000000#32) ∧
  (∀ w : CmdWord, (∃ c, decode w = .instr (.convertColor c)) ↔ w &&& 0xFFFF8000#32 = 0x02000000#32) ∧
  (∀ w : CmdWord, ¬(w &&& 0xFFFF0000#32 = 0x01000000#32 ∧ w &&& 0xFFFF8000#32 = 0x02000000#32)) ∧
  (∀ w : CmdWord, decode w = .fault .illegalOpcode ↔ (w.toNat >>> 24 ≠ 0x01 ∧ w.toNat >>> 24 ≠ 0x02))

/-- Decoding and encoding agree both ways: every instruction's word decodes to it with every operand, and a word that
decodes to an instruction is that instruction's word, so that no bit of a legal word is ignored (R43 to R47, R50). -/
def Obligations.DecodeAndEncodeAgree : Prop :=
  (∀ i : Instr, decode (encode i) = .instr i) ∧
  (∀ (w : CmdWord) (i : Instr), decode w = .instr i → encode i = w)

/-- The operands are read from the bits R45 and R46 give them. -/
def Obligations.OperandsAreTheLowFields : Prop :=
  (∀ (w : CmdWord) (h l : Plane), decode w = .instr (.decodeRow h l) →
    h.toNat = (w.toNat >>> 8) % 256 ∧ l.toNat = w.toNat % 256 ∧ w.toNat % 65536 = pairIndex h l) ∧
  (∀ (w : CmdWord) (c : CgbColor), decode w = .instr (.convertColor c) → c.toNat = w.toNat % 65536 ∧ c.toNat ≤ 32767)

/-- ILLEGAL_OPCODE is given for exactly the unassigned opcodes, whatever the other 24 bits hold, and nothing is
computed (R82). -/
def Obligations.UnassignedOpcodeGivesFaultOne : Prop :=
  ∀ w : CmdWord,
    (faultPort w = 1#2 ↔ ¬(w.toNat >>> 24 = 0x01 ∨ w.toNat >>> 24 = 0x02)) ∧
    (faultPort w = 1#2 → resultPort w = none)

/-- RESERVED_BITS is given in exactly the two cases of R83, and the word is rejected: it has no RESULT. -/
def Obligations.ReservedBitGivesFaultTwo : Prop :=
  ∀ w : CmdWord,
    (faultPort w = 2#2 ↔
      ((w.toNat >>> 24 = 0x01 ∧ (w.toNat >>> 16) % 256 ≠ 0) ∨
       (w.toNat >>> 24 = 0x02 ∧ ((w.toNat >>> 16) % 256 ≠ 0 ∨ w.getLsbD 15 = true)))) ∧
    (faultPort w = 2#2 → resultPort w = none)

/-- No command drives FAULT = 3: every extracted channel is in [0,31], and the check that would raise INVARIANT raises
it for every channel outside that range, never a clamped or wrapped value (R69, R84). -/
def Obligations.ChannelCheckNeverFires : Prop :=
  (∀ c : CgbColor, red5 c ≤ 31 ∧ green5 c ≤ 31 ∧ blue5 c ≤ 31) ∧
  (∀ r g b : Nat, (31 < r ∨ 31 < g ∨ 31 < b) → (convertChannels r g b).faultBits = 3#2) ∧
  (∀ w : CmdWord, faultPort w ≠ 3#2)

/-! ### Pixel-row decode -/

/-- DECODE_ROW H, L runs in every state: it answers a next state that differs by one log entry, its word with FAULT 0
and the packed row of R58 and R52. Everything else is unchanged. -/
def Obligations.DecodeRowGivesThePackedRow : Prop :=
  ∀ (h l : Plane) (s : State),
    exec (.decodeRow h l) s = .next
      { s with log := s.log ++
          [⟨BitVec.ofNat 32 (0x01000000 + h.toNat * 256 + l.toNat), .result (BitVec.ofNat 16 (rowFormula h.toNat l.toNat))⟩] } ∧
    rowFormula h.toNat l.toNat < 65536 ∧
    (∀ p, p < 8 → (rowFormula h.toNat l.toNat >>> (14 - 2 * p)) &&& 3 = pixelFormula h.toNat l.toNat p ∧
      pixelFormula h.toNat l.toNat p = 2 * (h.getLsbD (7 - p)).toNat + (l.getLsbD (7 - p)).toNat)

/-- The corner cases and the worked example of R59. The last two clauses say that bit 7 of either plane affects only
pixel 0, and bit 0 only pixel 7: planes that differ nowhere else give the same pixel everywhere else, and another pixel
there. -/
def Obligations.DecodeRowCornerCases : Prop :=
  pixelRow 0x00#8 0x00#8 = #v[0#2, 0#2, 0#2, 0#2, 0#2, 0#2, 0#2, 0#2] ∧
  pixelRow 0xFF#8 0xFF#8 = #v[3#2, 3#2, 3#2, 3#2, 3#2, 3#2, 3#2, 3#2] ∧
  pixelRow 0xFF#8 0x00#8 = #v[2#2, 2#2, 2#2, 2#2, 2#2, 2#2, 2#2, 2#2] ∧
  pixelRow 0x00#8 0xFF#8 = #v[1#2, 1#2, 1#2, 1#2, 1#2, 1#2, 1#2, 1#2] ∧
  packedRow 0x00#8 0x00#8 = 0x0000#16 ∧ packedRow 0xFF#8 0xFF#8 = 0xFFFF#16 ∧
  packedRow 0xFF#8 0x00#8 = 0xAAAA#16 ∧ packedRow 0x00#8 0xFF#8 = 0x5555#16 ∧
  pixelRow 0x80#8 0x40#8 = #v[2#2, 1#2, 0#2, 0#2, 0#2, 0#2, 0#2, 0#2] ∧ packedRow 0x80#8 0x40#8 = 0x9000#16 ∧
  (∀ (h : Plane) (p : Nat), p < 8 → lane (packedRow h h) p = 0#2 ∨ lane (packedRow h h) p = 3#2) ∧
  (∀ h l h' l' : Plane, (∀ i, i < 7 → h.getLsbD i = h'.getLsbD i ∧ l.getLsbD i = l'.getLsbD i) →
    ∀ p, p < 8 → (lane (packedRow h l) p ≠ lane (packedRow h' l') p ↔
      p = 0 ∧ (h.getLsbD 7 ≠ h'.getLsbD 7 ∨ l.getLsbD 7 ≠ l'.getLsbD 7))) ∧
  (∀ h l h' l' : Plane, (∀ i, 0 < i → i < 8 → h.getLsbD i = h'.getLsbD i ∧ l.getLsbD i = l'.getLsbD i) →
    ∀ p, p < 8 → (lane (packedRow h l) p ≠ lane (packedRow h' l') p ↔
      p = 7 ∧ (h.getLsbD 0 ≠ h'.getLsbD 0 ∨ l.getLsbD 0 ≠ l'.getLsbD 0)))

/-- Lane p depends on exactly H[7-p] and L[7-p]: two commands give the same lane p if and only if they agree on those
two bits (R60). -/
def Obligations.LaneDependsOnItsTwoBits : Prop :=
  ∀ (h l h' l' : Plane) (p : Nat), p < 8 →
    (lane (packedRow h l) p = lane (packedRow h' l') p ↔
      h.getLsbD (7 - p) = h'.getLsbD (7 - p) ∧ l.getLsbD (7 - p) = l'.getLsbD (7 - p)) ∧
    (lane (packedRow h l) p).toNat ≤ 3

/-- The packed result is the bit interleave of the planes, H in the odd positions and L in the even ones (R61). -/
def Obligations.RowIsTheBitInterleave : Prop :=
  ∀ h l : Plane,
    (∀ i, i < 8 → (packedRow h l).getLsbD (2 * i + 1) = h.getLsbD i ∧ (packedRow h l).getLsbD (2 * i) = l.getLsbD i) ∧
    (packedRow h l).toNat =
      ((List.range 8).map fun i => ((h.getLsbD i).toNat <<< (2 * i + 1)) ||| ((l.getLsbD i).toNat <<< (2 * i))).sum

/-- DECODE_ROW is injective, the planes are recovered from RESULT, and every 16-bit value is the result of exactly one
pair (R62). -/
def Obligations.RowIsInvertible : Prop :=
  (∀ h l : Plane, highPlane (packedRow h l) = h ∧ lowPlane (packedRow h l) = l) ∧
  (∀ h l h' l' : Plane, packedRow h l = packedRow h' l' → h = h' ∧ l = l') ∧
  (∀ r : ResultWord, ∃ h l : Plane, packedRow h l = r) ∧
  (∀ (r : ResultWord) (i : Nat), i < 8 →
    (highPlane r).getLsbD i = r.getLsbD (2 * i + 1) ∧ (lowPlane r).getLsbD i = r.getLsbD (2 * i))

/-- Swapping the planes swaps the two bits of every lane, which shows in every lane whose bits differ (R63). -/
def Obligations.PlaneSwapSwapsEveryLane : Prop :=
  (∀ (h l : Plane) (p : Nat), p < 8 → pixel l h p = swap2 (pixel h l p)) ∧
  (swap2 0#2 = 0#2 ∧ swap2 1#2 = 2#2 ∧ swap2 2#2 = 1#2 ∧ swap2 3#2 = 3#2) ∧
  (∀ (h l : Plane) (p : Nat), p < 8 →
    (lane (packedRow l h) p ≠ lane (packedRow h l) p ↔ h.getLsbD (7 - p) ≠ l.getLsbD (7 - p))) ∧
  pixelRow 0x80#8 0x40#8 = #v[2#2, 1#2, 0#2, 0#2, 0#2, 0#2, 0#2, 0#2] ∧
  pixelRow 0x40#8 0x80#8 = #v[1#2, 2#2, 0#2, 0#2, 0#2, 0#2, 0#2, 0#2]

/-- PIXTAB i is the read PixRom(i): it assembles to DECODE_ROW with CMD[15:0] = i, and that word's RESULT is the entry
and the RESULT of `DECODE_ROW i >> 8, i & 0xFF` (R64). -/
def Obligations.PixtabReadsThePixelTable : Prop :=
  (∀ i : Nat, i < 65536 → ∃ w : CmdWord,
    assemble (.pixtab i) = .ok w ∧ assemble (.decodeRow (i >>> 8) (i &&& 0xFF)) = .ok w ∧
    w.toNat = 0x01000000 + i ∧ faultPort w = 0#2 ∧ resultPort w = memRead .pix i 2 ∧
    resultPort w = some (pixRom i) ∧ (∀ p, p < 8 → lane (pixRom i) p = pixRomLane i p)) ∧
  pixRom 0xFF00 = 0xAAAA#16

/-! ### Colour conversion -/

/-- CONVERT_COLOR C runs in every state: it answers a next state that differs by one log entry, its word with FAULT 0
and the composition of R75, whose three fields do not overlap. Everything else is unchanged. -/
def Obligations.ConvertColorGivesRgb565 : Prop :=
  ∀ (c : CgbColor) (s : State),
    exec (.convertColor c) s = .next
      { s with log := s.log ++
          [⟨BitVec.ofNat 32 (0x02000000 + c.toNat), .result (BitVec.ofNat 16 (rgb565Formula c.toNat))⟩] } ∧
    rgb565Formula c.toNat = red5 c * 2048 + g6Formula (green5 c) * 32 + blue5 c ∧
    rgb565Formula c.toNat ≤ 65535

/-- Red and blue pass through and green is rescaled (R77, the corrected property of C1), and the wording of the
source's section 8 fails at C = 0x001F. -/
def Obligations.ColorChannelsPassThrough : Prop :=
  (∀ c : CgbColor,
    (rgb565 c).toNat >>> 11 = c.toNat % 32 ∧
    (rgb565 c).toNat % 32 = c.toNat >>> 10 ∧
    ((rgb565 c).toNat >>> 5) % 64 = g6Formula ((c.toNat >>> 5) % 32)) ∧
  (rgb565 0x001F#15).toNat % 32 = 0 ∧ (0x001F#15 : CgbColor).toNat % 32 = 31

/-- The section 8 wording (output bits 0 to 4 and 10 to 14 equal those of the input) holds for exactly the 32 colours
that the audit of 95_test_vectors.md section 1 lists (C1). -/
def Obligations.WrongPassThroughHoldsForThirtyTwoColors : Prop :=
  ∀ c : CgbColor,
    ((rgb565 c).toNat % 32 = c.toNat % 32 ∧ ((rgb565 c).toNat >>> 10) % 32 = c.toNat >>> 10) ↔
      ((red5 c = 0 ∧ blue5 c = 0 ∧ green5 c ≤ 15) ∨ (red5 c = 31 ∧ blue5 c = 31 ∧ 16 ≤ green5 c))

/-- The rounding used is rounding of the exact rational to the nearest integer, an exact half going away from zero, for
every nonnegative rational; the machine's G6 is that rounding of G5 * 63 / 31, and no tie occurs there (R70). -/
def Obligations.GreenIsTheRoundedRational : Prop :=
  (∀ n d : Nat, 0 < d → ((roundHalfAway n d : Nat) : ℤ) = ⌊((n : ℚ) / d) + 1 / 2⌋ ∧
    |((roundHalfAway n d : Nat) : ℚ) - (n : ℚ) / d| ≤ 1 / 2) ∧
  (∀ g : Nat, g ≤ 31 → ((green6 g : Nat) : ℤ) = ⌊((g : ℚ) * 63 / 31) + 1 / 2⌋ ∧ Int.fract ((g : ℚ) * 63 / 31) ≠ 1 / 2)

/-- The exact integer forms agree on the domain; the fractional part is (G5 mod 31)/31, at least 1/62 away from a tie;
so any rounding to nearest, and any evaluation with an error below 1/62, gives the same G6 (R71). -/
def Obligations.GreenIntegerFormsAgree : Prop :=
  ∀ g : Nat, g ≤ 31 →
    green6 g = g6Formula g ∧ green6 g = (63 * g + 15) / 31 ∧ green6 g = (126 * g + 31) / 62 ∧
    (63 * g) % 31 = g % 31 ∧ Int.fract ((g : ℚ) * 63 / 31) = ((g % 31 : Nat) : ℚ) / 31 ∧
    (1 / 62 : ℚ) ≤ |Int.fract ((g : ℚ) * 63 / 31) - 1 / 2| ∧
    (∀ m : Nat, |(m : ℚ) - (g : ℚ) * 63 / 31| ≤ 1 / 2 → m = green6 g) ∧
    (∀ x : ℚ, |x - (g : ℚ) * 63 / 31| < 1 / 62 → ⌊x + 1 / 2⌋ = ((green6 g : Nat) : ℤ))

/-- The complete G6 table (R72). -/
def Obligations.GreenTable : Prop :=
  (List.range 32).map green6 =
    [0, 2, 4, 6, 8, 10, 12, 14, 16, 18, 20, 22, 24, 26, 28, 30] ++
    [33, 35, 37, 39, 41, 43, 45, 47, 49, 51, 53, 55, 57, 59, 61, 63] ∧
  green6 16 = 33 ∧ green6 31 = 63

/-- The bit-replication form and its inverse (R73). -/
def Obligations.GreenIsBitReplication : Prop :=
  ∀ g : Nat, g ≤ 31 → green6 g = (g <<< 1) ||| (g >>> 4) ∧ g = green6 g >>> 1

/-- The ends, the strict growth and the step sizes of the green rescale (R74). -/
def Obligations.GreenIsStrictlyIncreasing : Prop :=
  green6 0 = 0 ∧ green6 31 = 63 ∧
  (∀ a b : Nat, a < b → b ≤ 31 → green6 a < green6 b) ∧
  (∀ a b : Nat, a ≤ 31 → b ≤ 31 → green6 a = green6 b → a = b) ∧
  (∀ g : Nat, g ≤ 31 → g = green6 g >>> 1) ∧
  (∀ g : Nat, g < 31 → green6 (g + 1) - green6 g = if g = 15 then 3 else 2) ∧
  ((List.range 64).filter fun v => (List.range 32).any fun g => green6 g == v).length = 32

/-- The conversion is injective: C is recovered from RESULT by the inverse of R79, and the 32768 entries are pairwise
distinct. -/
def Obligations.ColorIsRecovered : Prop :=
  (∀ c : CgbColor, colorOf (rgb565 c) = c) ∧
  (∀ a b : CgbColor, rgb565 a = rgb565 b → a = b) ∧
  (romImage .pal).length = 32768 ∧ (romImage .pal).Nodup ∧
  (∀ c, c < 32768 → (romImage .pal)[c]? = some (palRom c))

/-- PALTAB c is the read PalRom(c), and CONVERT_RGB r, g, b is CONVERT_COLOR of the colour with those channels (R78). -/
def Obligations.PaltabAndConvertRgb : Prop :=
  (∀ c : Nat, c < 32768 → ∃ w : CmdWord,
    assemble (.paltab c) = .ok w ∧ assemble (.convertColor c) = .ok w ∧ w.toNat = 0x02000000 + c ∧
    faultPort w = 0#2 ∧ resultPort w = memRead .pal c 2 ∧ resultPort w = some (palRom c)) ∧
  (∀ r g b : Nat, r ≤ 31 → g ≤ 31 → b ≤ 31 →
    assemble (.convertRgb r g b) = assemble (.convertColor ((b <<< 10) ||| (g <<< 5) ||| r)) ∧
    ∃ c : CgbColor, assemble (.convertRgb r g b) = .ok (encode (.convertColor c)) ∧
      red5 c = r ∧ green5 c = g ∧ blue5 c = b) ∧
  assemble (.convertRgb 0 16 0) = .ok 0x02000200#32 ∧ resultPort 0x02000200#32 = some 0x0420#16

/-! ### Table memories -/

/-- A command is a table read at its own low bits: the datapath computed in logic and a correctly stored ROM image give
the same response (R25, R26, R27, R101), and no other read exists (R10, R32). -/
def Obligations.CommandsAreTableReads : Prop :=
  (∀ (h l : Plane) (img : List ResultWord), storedCorrectly .pix img →
    img[pairIndex h l]? = (instrResponse (.decodeRow h l)).resultBits ∧
    memRead .pix (pairIndex h l) 2 = (instrResponse (.decodeRow h l)).resultBits) ∧
  (∀ (c : CgbColor) (img : List ResultWord), storedCorrectly .pal img →
    img[c.toNat]? = (instrResponse (.convertColor c)).resultBits ∧
    memRead .pal c.toNat 2 = (instrResponse (.convertColor c)).resultBits) ∧
  (∀ (t : Table) (a n : Nat), (n ≠ 2 ∨ t.entries ≤ a) → memRead t a n = none)

/-- The pixel table covers the 65536 pairs exactly once, in the order i = H * 256 + L, with distinct entries (R28, R29,
R65). -/
def Obligations.PixelTableIsComplete : Prop :=
  (∀ i, i < 65536 → pairIndex (pairHigh i) (pairLow i) = i) ∧
  (∀ h l : Plane, pairIndex h l < 65536 ∧ pairHigh (pairIndex h l) = h ∧ pairLow (pairIndex h l) = l) ∧
  (romImage .pix).length = 65536 ∧ (romImage .pix).Nodup ∧
  (∀ i, i < 65536 → (romImage .pix)[i]? = some (pixRom i))

/-- A host reads back the word it stored, in either byte order (R31, D12). The order is the host's choice. -/
def Obligations.HostStoreReadsBack : Prop :=
  (∀ (o : ByteOrder) (v : ResultWord), hostWord o (hostBytes o v) = some v) ∧
  (∀ v : ResultWord, hostBytes .bigEndian v = (hostBytes .littleEndian v).reverse)

/-- An emitted pixel element of any width of at least 2 bits, this host's among them, keeps the pixel's value (R30, D13). -/
def Obligations.EmittedElementKeepsThePixel : Prop :=
  (∀ (bits : Nat) (v : PixelIndex), 2 ≤ bits → (pixElement bits v).toNat = v.toNat) ∧ 2 ≤ Config.pixElemBits

/-! ### The machine -/

/-- A properly presented word that decodes to `i` makes the step exec of `i`, with the command taken off the host's
list. -/
def Obligations.StepRunsTheDecodedCommand : Prop :=
  ∀ (s : State) (p : Presentation) (rest : List HostAction) (i : Instr),
    s.inputs = .present p :: rest → p.undriven = 0#32 → p.conduct = .heldUntilTaken → decode p.word = .instr i →
    step s = exec i { s with inputs := rest }

/-- A properly presented word that the decoder rejects is answered with its fault: one log entry, one fault record
entry with the command word and the code (R21, R85), nothing else changed. That this is a next state, so that the run
goes on after a fault, is the model's choice (log entry 3), which R90 and R107 leave it free to make. -/
def Obligations.RejectedWordIsRecorded : Prop :=
  ∀ (s : State) (p : Presentation) (rest : List HostAction) (c : FaultCode),
    s.inputs = .present p :: rest → p.undriven = 0#32 → p.conduct = .heldUntilTaken → decode p.word = .fault c →
    step s = .next { inputs := rest,
                     log := s.log ++ [⟨p.word, .fault c⟩],
                     faultRecord := s.faultRecord ++ [⟨p.word, c⟩] }

/-- The response to a command is a function of its word alone: presented in two states, with two logs behind it, or to
two instances, the same word gets the same response, that of `respond` (R18, R95). That a faulting word too is answered
by a next state is the model's choice (log entry 3). -/
def Obligations.ResponseIsAFunctionOfTheWord : Prop :=
  ∀ (s t : State) (w : CmdWord) (rest rest' : List HostAction),
    s.inputs = .present (.proper w) :: rest → t.inputs = .present (.proper w) :: rest' →
    ∃ (r : Response) (s' t' : State),
      step s = .next s' ∧ step t = .next t' ∧ s'.log = s.log ++ [⟨w, r⟩] ∧ t'.log = t.log ++ [⟨w, r⟩] ∧
      r = respond w ∧ s'.inputs = rest ∧ t'.inputs = rest'

/-- After reset the log and the fault record are empty (R22) and the host has nothing pending (the model's choice, log
entry 1). -/
def Obligations.ResetIsEmpty : Prop :=
  State.reset.log = [] ∧ State.reset.faultRecord = [] ∧ State.reset.inputs = [] ∧ State.reset.Truthful

/-- Every step keeps the bookkeeping truthful: each log entry holds the block's response to its command, and the fault
record is exactly the faulting part of the log, in order (R18, R21). -/
def Obligations.StepKeepsTheRecordTruthful : Prop :=
  ∀ s s' : State, s.Truthful → step s = .next s' → s'.Truthful

/-- The log and the fault record are never cleared: a step only adds to them, at the end, at most one entry each (R21,
R37). -/
def Obligations.RecordsOnlyGrow : Prop :=
  ∀ s s' : State, step s = .next s' →
    ∃ (e : List LogEntry) (f : List FaultEntry),
      s'.log = s.log ++ e ∧ s'.faultRecord = s.faultRecord ++ f ∧ e.length ≤ 1 ∧ f.length ≤ e.length ∧
      s'.inputs = s.inputs.drop 1

/-- Every list of commands runs to its end from every state: one response per command, in the order of presentation,
none reordered, merged or dropped, and a faulting command changes no later response (R37, R90, R104, R107). Going on
after a fault is the model's choice (log entry 3). -/
def Obligations.EveryCommandListIsAnsweredInOrder : Prop :=
  ∀ (ws : List CmdWord) (rest : List HostAction) (s : State),
    s.inputs = commandList ws ++ rest →
    core.run ws.length s = .next
      { inputs := rest
        log := s.log ++ ws.map logged
        faultRecord := s.faultRecord ++ (ws.map logged).filterMap LogEntry.faultEntry }

/-- A run succeeds exactly when every word of its list is legal (R107, R50, R51). That a run with a fault comes to its
end, failed, is the model's choice (log entry 3); success is said of an ended run (log entry 18). -/
def Obligations.RunSucceedsIffEveryWordIsLegal : Prop :=
  ∀ ws : List CmdWord, ∃ t : State,
    core.run ws.length (State.startOf ws) = .next t ∧ t = State.endOf ws ∧
    (t.successful = true ↔ ∀ w ∈ ws, legalWord w = true)

/-- A run ends when the host has taken the response to its last command, and not before, whatever uses of RESULT come
after; it is then successful exactly when its fault record is empty, which is when every word is legal, and it is failed
as soon as a fault is recorded. Its observation is the response log (R107). Going on after a fault and saying success of
ended runs are the model's (log entries 3 and 18). -/
def Obligations.RunEndsAtTheLastResponse : Prop :=
  ∀ (ws : List CmdWord) (n k : Nat), k ≤ ws.length → ∃ t : State,
    core.run k { State.reset with inputs := commandList ws ++ List.replicate n .useResult } = .next t ∧
    t.log = (ws.take k).map logged ∧
    (t.ended = true ↔ k = ws.length) ∧
    (t.failed = true ↔ ∃ w ∈ ws.take k, legalWord w = false) ∧
    (t.successful = true ↔ k = ws.length ∧ t.faultRecord = []) ∧
    (t.successful = true ↔ k = ws.length ∧ ∀ w ∈ ws, legalWord w = true)

/-- A host that reorders its own commands reorders only the log (R37, R16). Runs go on after a fault by the model's
choice (log entry 3). -/
def Obligations.ReorderingReordersOnlyTheLog : Prop :=
  ∀ (ws ws' : List CmdWord) (t t' : State), ws.Perm ws' →
    core.run ws.length (State.startOf ws) = .next t → core.run ws'.length (State.startOf ws') = .next t' →
    t.log.Perm t'.log ∧ t.faultRecord.Perm t'.faultRecord ∧ t.successful = t'.successful

/-- Instances share nothing: a step of one leaves every other as it was (R95). That one moves at a time is the model's
choice (log entry 13). -/
def Obligations.InstancesShareNothing : Prop :=
  ∀ (sys sys' : System) (k : Nat), sys.stepAt k = .next sys' →
    sys'.length = sys.length ∧
    (∀ j, j ≠ k → sys'[j]? = sys[j]?) ∧
    (∀ s, sys[k]? = some s → ∃ s', step s = .next s' ∧ sys'[k]? = some s')

/-- RESULT carries a value exactly when FAULT is 0, and FAULT is 0 exactly for a legal word (R15, R86, R50). -/
def Obligations.ResultHasAValueIffNoFault : Prop :=
  ∀ w : CmdWord,
    ((resultPort w).isSome = true ↔ faultPort w = 0#2) ∧ (faultPort w = 0#2 ↔ legalWord w = true)

/-- The host may use RESULT of the last response when FAULT was 0, and that changes nothing; when FAULT was not 0 the
use faults (R86, R106); with no response yet it is refused (the model's choice, log entry 4). -/
def Obligations.UseOfResult : Prop :=
  ∀ (s : State) (rest : List HostAction), s.inputs = .useResult :: rest →
    (∀ w v, s.log.getLast? = some ⟨w, .result v⟩ →
      step s = .next { s with inputs := rest } ∧ s.lastResult = some v) ∧
    (∀ w c, s.log.getLast? = some ⟨w, .fault c⟩ → step s = .fault .resultHasNoValue ∧ s.lastResult = none) ∧
    (s.log = [] → step s = .refused .noResponseYet)

/-- A command with an undriven bit, not held, or whose response is taken early is not admitted, whatever its word (R23,
R103, R104). The order of the checks is the model's choice (log entry 5). -/
def Obligations.ImproperPresentationIsRefused : Prop :=
  ∀ (s : State) (p : Presentation) (rest : List HostAction), s.inputs = .present p :: rest →
    (p.undriven ≠ 0#32 → step s = .refused .undrivenCommandBits) ∧
    (p.undriven = 0#32 → p.conduct = .changedBeforeTaken → step s = .refused .commandNotHeld) ∧
    (p.undriven = 0#32 → p.conduct = .takenBeforeReady → step s = .refused .responseTakenEarly)

/-- For every latency: the host that waits `latency` cycles and holds CMD until then is admitted, any other is not, and
on a combinational block no response is early; an admitted command's response does not depend on the timing (R103,
R104). The reading of the cycles and going on after a fault are the model's (log entries 6 and 3). -/
def Obligations.LatencyChangesNoResponse : Prop :=
  (∀ n u k : Nat, HostConduct.ofCycles n u k = .heldUntilTaken ↔ n ≤ k ∧ k ≤ u) ∧
  (∀ u k : Nat, HostConduct.ofCycles 0 u k ≠ .takenBeforeReady) ∧
  (∀ (s : State) (w : CmdWord) (u k : Nat) (rest : List HostAction),
    s.inputs = .present (.timed w u k) :: rest → Config.latency ≤ k → k ≤ u →
    ∃ s', step s = .next s' ∧ s'.log = s.log ++ [logged w])

/-- With nothing presented the block is idle (the model's choice, log entry 2). -/
def Obligations.IdleStepChangesNothing : Prop :=
  ∀ s : State, s.inputs = [] → step s = .next s

/-- A word placed where the step takes its next command is the command the very next step answers (the model's load of
a command, log entry 1). -/
def Obligations.PlacedWordRunsNext : Prop :=
  ∀ (s : State) (w : CmdWord), step (s.withFetchWord 32 w.toNat) = runWord w { s with inputs := s.inputs.tail }

/-! ### Assembler -/

/-- The expansions and words of the pseudo-instructions, and "A disassembler prints the base instruction" (R55): a word
that decodes to an instruction disassembles to that instruction. Only an illegal word is spelled `.word`, which is the
model's reading (log entry 12). -/
def Obligations.PseudoInstructionsExpand : Prop :=
  (∀ i : Nat, i ≤ 65535 → assemble (.pixtab i) = .ok (BitVec.ofNat 32 (0x01000000 ||| i)) ∧
    expandStmt (.pixtab i) = .decodeRow (i >>> 8) (i &&& 0xFF)) ∧
  (∀ c : Nat, c ≤ 32767 → assemble (.paltab c) = .ok (BitVec.ofNat 32 (0x02000000 ||| c)) ∧
    expandStmt (.paltab c) = .convertColor c) ∧
  (∀ r g b : Nat, r ≤ 31 → g ≤ 31 → b ≤ 31 →
    assemble (.convertRgb r g b) = .ok (BitVec.ofNat 32 (0x02000000 ||| (b <<< 10) ||| (g <<< 5) ||| r)) ∧
    expandStmt (.convertRgb r g b) = .convertColor ((b <<< 10) ||| (g <<< 5) ||| r)) ∧
  (∀ (w : CmdWord) (h l : Plane), decode w = .instr (.decodeRow h l) → disassemble w = .decodeRow h.toNat l.toNat) ∧
  (∀ (w : CmdWord) (c : CgbColor), decode w = .instr (.convertColor c) → disassemble w = .convertColor c.toNat) ∧
  (∀ (w : CmdWord) (f : FaultCode), decode w = .fault f → disassemble w = .word w.toNat) ∧
  (∀ (w : CmdWord) (n : Nat), disassemble w = .word n → ∃ f, decode w = .fault f)

/-- An operand out of its range is an assembly error, for every statement and every operand, and nothing else is (R54). -/
def Obligations.AssemblerRefusesOutOfRange : Prop :=
  (∀ h l : Nat, assemble (.decodeRow h l) = .error .operandOutOfRange ↔ (255 < h ∨ 255 < l)) ∧
  (∀ c : Nat, assemble (.convertColor c) = .error .operandOutOfRange ↔ 32767 < c) ∧
  (∀ i : Nat, assemble (.pixtab i) = .error .operandOutOfRange ↔ 65535 < i) ∧
  (∀ c : Nat, assemble (.paltab c) = .error .operandOutOfRange ↔ 32767 < c) ∧
  (∀ r g b : Nat, assemble (.convertRgb r g b) = .error .operandOutOfRange ↔ (31 < r ∨ 31 < g ∨ 31 < b)) ∧
  (∀ w : Nat, assemble (.word w) = .error .operandOutOfRange ↔ 0xFFFFFFFF < w)

/-- Every 32-bit word, legal or not, is spelled by the text the disassembler prints for it, and assembles back to
itself (R54, R55; the printed number format is the model's choice, log entry 12). -/
def Obligations.DisassemblyAssemblesBack : Prop :=
  ∀ w : CmdWord,
    assemble (disassemble w) = .ok w ∧
    parseLine (disassembleLine w) = .ok (some (disassemble w)) ∧
    assembleLine (disassembleLine w) = .ok (some w)
end

