-- ==== Sys2Proof/Laws/Assembler.lean ====
section
/-! SUPPORT. Laws/Assembler.lean: what the character functions of the assembler do. -/

namespace Sys2Proof.Machine

/-- A hexadecimal digit reads back as its value and is no blank, comma or comment sign. -/
theorem hexChar_facts : ∀ d, d < 16 →
    digitValue 16 (hexChar d) = some d ∧ isBlank (hexChar d) = false ∧ hexChar d ≠ ';' ∧ hexChar d ≠ ',' := by
  decide

theorem digitsValue_append (base acc : Nat) (xs ys : List Char) :
    digitsValue base acc (xs ++ ys) = (digitsValue base acc xs).bind fun a => digitsValue base a ys := by
  induction xs generalizing acc with
  | nil => rfl
  | cons x xs ih =>
    simp only [List.cons_append, digitsValue]
    cases digitValue base x <;> simp [ih]

/-- The digits printed for a number read back as its last `k` hexadecimal digits. -/
theorem digitsValue_hexDigits (k n : Nat) : digitsValue 16 0 (hexDigits k n) = some (n % 16 ^ k) := by
  induction k generalizing n with
  | zero => simp [hexDigits, digitsValue, Nat.mod_one]
  | succ k ih =>
    rw [hexDigits, digitsValue_append, ih]
    simp only [Option.bind_some, digitsValue, (hexChar_facts (n % 16) (Nat.mod_lt _ (by norm_num))).1]
    rw [pow_succ, Nat.mul_comm (16 ^ k), Nat.mod_mul, Nat.mul_comm 16, Nat.add_comm]

theorem mem_hexDigits {k n : Nat} {c : Char} (h : c ∈ hexDigits k n) : ∃ d, d < 16 ∧ c = hexChar d := by
  induction k generalizing n with
  | zero => simp [hexDigits] at h
  | succ k ih =>
    rcases List.mem_append.1 h with h | h
    · exact ih h
    · exact ⟨_, Nat.mod_lt n (by norm_num), by simpa using h⟩

theorem splitAtChar_of_notMem (sep : Char) (cs : List Char) (h : sep ∉ cs) : splitAtChar sep cs = [cs] := by
  induction cs with
  | nil => rfl
  | cons c cs ih =>
    obtain ⟨h1, h2⟩ := not_or.1 (List.mem_cons.not.1 h)
    rw [splitAtChar, if_neg (Ne.symm h1), ih h2]

/-- One separator makes two pieces. -/
theorem splitAtChar_append (sep : Char) (a b : List Char) (ha : sep ∉ a) (hb : sep ∉ b) :
    splitAtChar sep (a ++ sep :: b) = [a, b] := by
  induction a with
  | nil => simp [splitAtChar, splitAtChar_of_notMem sep b hb]
  | cons c cs ih =>
    obtain ⟨h1, h2⟩ := not_or.1 (List.mem_cons.not.1 ha)
    rw [List.cons_append, splitAtChar, if_neg (Ne.symm h1), ih h2]

theorem stripComment_of_notMem (cs : List Char) (h : ';' ∉ cs) : stripComment cs = cs := by
  rw [stripComment, List.takeWhile_eq_self_iff]
  intro c hc
  simpa using fun e : c = ';' => h (e ▸ hc)

end Sys2Proof.Machine
end

