-- ==== Sys2Proof/Laws/Color.lean ====
section
/-! SUPPORT. Laws/Color.lean: the channels of a colour as remainders. -/

namespace Sys2Proof.Machine

variable (c : CgbColor)

theorem red5_eq : red5 c = c.toNat % 32 := by
  rw [red5]; exact Nat.and_two_pow_sub_one_eq_mod _ 5

theorem green5_eq : green5 c = c.toNat / 32 % 32 := by
  rw [green5, Nat.shiftRight_eq_div_pow]; exact Nat.and_two_pow_sub_one_eq_mod _ 5

theorem blue5_eq : blue5 c = c.toNat / 1024 % 32 := by
  rw [blue5, Nat.shiftRight_eq_div_pow]; exact Nat.and_two_pow_sub_one_eq_mod _ 5

/-- Fields that do not overlap: or is sum (R75). -/
theorem fields_or_eq_add (r g b : Nat) (hg : g < 64) (hb : b < 32) :
    (r <<< 11) ||| (g <<< 5) ||| b = r * 2048 + g * 32 + b := by
  have e1 : (r <<< 11) ||| (g <<< 5) = ((r <<< 6) + g) <<< 5 := by
    rw [Nat.shiftLeft_add_eq_or_of_lt (i := 6) (by simpa using hg), Nat.shiftLeft_or_distrib, ← Nat.shiftLeft_add]
  rw [e1, ← Nat.shiftLeft_add_eq_or_of_lt (i := 5) (by simpa using hb)]
  simp [Nat.shiftLeft_eq]
  ring

/-- The red field of the composed word (R75: bits 15..11). -/
theorem fields_high (r g b : Nat) (hg : g < 64) (hb : b < 32) : (r * 2048 + g * 32 + b) / 2048 = r := by omega

/-- The green field of the composed word (R75: bits 10..5). -/
theorem fields_mid (r g b : Nat) (hg : g < 64) (hb : b < 32) : (r * 2048 + g * 32 + b) / 32 % 64 = g := by
  have : (r * 2048 + g * 32 + b) / 32 = r * 64 + g := by omega
  omega

/-- The blue field of the composed word (R75: bits 4..0). -/
theorem fields_low (r g b : Nat) (hb : b < 32) : (r * 2048 + g * 32 + b) % 32 = b := by omega

/-- A colour is made of its channels (R68). -/
theorem color_toNat_eq : c.toNat = blue5 c * 1024 + green5 c * 32 + red5 c := by
  have := c.isLt
  rw [red5_eq, blue5_eq, green5_eq]
  omega

end Sys2Proof.Machine
end

