-- ==== Sys2Proof/Laws/Decode.lean ====
section
/-! SUPPORT. Laws/Decode.lean: the fields of a command word as numbers, and the fields of an encoded instruction. -/

namespace Sys2Proof

variable (w : CmdWord)

theorem cmdField_toNat (lo n : Nat) : (cmdField w lo n).toNat = (w.toNat >>> lo) % 2 ^ n := by
  simp [cmdField, BitVec.extractLsb'_toNat]

@[simp] theorem cmdField_getLsbD (lo n i : Nat) :
    (cmdField w lo n).getLsbD i = (decide (i < n) && w.getLsbD (lo + i)) := by
  simp [cmdField, BitVec.getLsbD_extractLsb']

theorem opcField_toNat : (opcField w).toNat = w.toNat >>> 24 := by
  have := w.isLt
  rw [opcField, cmdField_toNat, Nat.mod_eq_of_lt]
  rw [Nat.shiftRight_eq_div_pow]; omega

theorem rsvField_toNat : (rsvField w).toNat = (w.toNat >>> 16) % 256 := cmdField_toNat w 16 8
theorem rsv15Field_toNat : (rsv15Field w).toNat = (w.toNat >>> 15) % 2 := cmdField_toNat w 15 1
theorem hField_toNat : (hField w).toNat = (w.toNat >>> 8) % 256 := cmdField_toNat w 8 8
theorem lField_toNat : (lField w).toNat = w.toNat % 256 := cmdField_toNat w 0 8
theorem cField_toNat : (cField w).toNat = w.toNat % 32768 := cmdField_toNat w 0 15

/-- Concatenation as arithmetic: the high part counts the low part's range. -/
theorem append_toNat_eq {m n : Nat} (x : BitVec m) (y : BitVec n) : (x ++ y).toNat = x.toNat * 2 ^ n + y.toNat := by
  rw [BitVec.toNat_append, ← Nat.shiftLeft_add_eq_or_of_lt y.isLt, Nat.shiftLeft_eq]

/-- The word of DECODE_ROW as a number (R44, R45). -/
theorem encode_decodeRow_toNat (h l : Plane) :
    (encode (.decodeRow h l)).toNat = 0x01000000 + h.toNat * 256 + l.toNat := by
  simp only [encode, append_toNat_eq, BitVec.toNat_ofNat]
  omega

/-- The word of CONVERT_COLOR as a number (R44, R46). -/
theorem encode_convertColor_toNat (c : CgbColor) : (encode (.convertColor c)).toNat = 0x02000000 + c.toNat := by
  simp only [encode, append_toNat_eq, BitVec.toNat_ofNat]
  omega

/-- A mask of the high bits compares quotients (R44's masks). -/
theorem and_highMask_eq_iff (k : Nat) (m v : BitVec 32) (hm : m = BitVec.allOnes 32 <<< k) (hv : v.toNat % 2 ^ k = 0) :
    w &&& m = v ↔ w.toNat / 2 ^ k = v.toNat / 2 ^ k := by
  have e : w &&& m = (w >>> k) <<< k := by
    apply BitVec.eq_of_getLsbD_eq
    intro i hi
    rw [hm, BitVec.getLsbD_and, BitVec.getLsbD_shiftLeft, BitVec.getLsbD_shiftLeft, BitVec.getLsbD_ushiftRight,
      BitVec.getLsbD_allOnes]
    by_cases h : i < k
    · simp [h]
    · simp [h, hi, show k + (i - k) = i by omega, show i - k < 32 by omega]
  have hlt : w.toNat / 2 ^ k * 2 ^ k < 2 ^ 32 := lt_of_le_of_lt (Nat.div_mul_le_self _ _) w.isLt
  rw [e, ← BitVec.toNat_inj, BitVec.toNat_shiftLeft, BitVec.toNat_ushiftRight, Nat.shiftRight_eq_div_pow,
    Nat.shiftLeft_eq, Nat.mod_eq_of_lt hlt]
  constructor
  · intro h
    rw [← h, Nat.mul_div_cancel _ (Nat.two_pow_pos k)]
  · intro h
    rw [h, Nat.div_mul_cancel (Nat.dvd_of_mod_eq_zero hv)]

end Sys2Proof
end

