-- ==== Sys2Proof/Laws/PerInstr.lean ====
section
/-! SUPPORT. Laws/PerInstr.lean: what holds of every instruction as syntax, one lemma per constructor. -/

namespace Sys2Proof.Laws

/-- The fixed fields of an instruction's word: an assigned opcode, RSV zero (R42, R44, R48). -/
def EncodingFields.Statement (i : Instr) : Prop :=
  rsvField (encode i) = 0#8 ∧ opcField (encode i) = match i with
    | .decodeRow _ _ => 0x01#8
    | .convertColor _ => 0x02#8

theorem EncodingFields.decodeRow (h l : Plane) : EncodingFields.Statement (.decodeRow h l) := by
  have := h.isLt
  have := l.isLt
  constructor <;> apply BitVec.eq_of_toNat_eq <;>
    simp [rsvField_toNat, opcField_toNat, encode_decodeRow_toNat, Nat.shiftRight_eq_div_pow] <;> omega

theorem EncodingFields.convertColor (c : CgbColor) : EncodingFields.Statement (.convertColor c) := by
  have := c.isLt
  constructor <;> apply BitVec.eq_of_toNat_eq <;>
    simp [rsvField_toNat, opcField_toNat, encode_convertColor_toNat, Nat.shiftRight_eq_div_pow] <;> omega

end Sys2Proof.Laws
end

