-- ==== Sys2Proof/Laws/Pixel.lean ====
section
/-! SUPPORT. Laws/Pixel.lean: the bits of a pixel and of a packed row. -/

namespace Sys2Proof.Machine

variable (h l : Plane)

/-- The form `{H[7-p], L[7-p]}` of R58, bit by bit. -/
theorem pixel_getLsbD (p i : Nat) :
    (pixel h l p).getLsbD i = if i = 0 then l.getLsbD (7 - p) else if i = 1 then h.getLsbD (7 - p) else false := by
  have h2 : 2 ≤ i ∨ i = 0 ∨ i = 1 := by omega
  rcases h2 with h2 | rfl | rfl
  · rw [BitVec.getLsbD_of_ge _ _ h2]
    simp [show i ≠ 0 by omega, show i ≠ 1 by omega]
  · simp [pixel]
  · simp [pixel]

/-- A pixel's value as a number (R58). -/
theorem pixel_toNat (p : Nat) :
    (pixel h l p).toNat = 2 * (h.getLsbD (7 - p)).toNat + (l.getLsbD (7 - p)).toNat := by
  have e : ∀ v : BitVec 2, v.toNat = 2 * (v.getLsbD 1).toNat + (v.getLsbD 0).toNat := by decide
  rw [e, pixel_getLsbD h l p 1, pixel_getLsbD h l p 0]
  simp

theorem pixelRow_getElem (p : Nat) (hp : p < 8) : (pixelRow h l)[p] = pixel h l p := by
  interval_cases p <;> rfl

/-- Bit `j` of a packed row is a bit of the pixel at position `7 - j/2` (R52). -/
theorem packRow_getLsbD (row : PixelRow) (j : Nat) (hj : j < 16) :
    (packRow row).getLsbD j = (row[7 - j / 2]'(by omega)).getLsbD (j % 2) := by
  interval_cases j <;> simp [packRow]

/-- Lane `p` is bits `[15-2p : 14-2p]` (R52). -/
theorem lane_getLsbD (r : ResultWord) (p i : Nat) (hi : i < 2) :
    (lane r p).getLsbD i = r.getLsbD (14 - 2 * p + i) := by
  have hi' : i = 0 ∨ i = 1 := by omega
  rcases hi' with rfl | rfl <;> simp [lane]

theorem swap2_getLsbD (v : PixelIndex) : ∀ i, i < 2 → (swap2 v).getLsbD i = v.getLsbD (1 - i) := by
  revert v; decide

end Sys2Proof.Machine
end

