-- ==== Sys2Proof/Laws/Safety.lean ====
section
/-! SUPPORT. Laws/Safety.lean: when a host list is at the end of its run, action by action. -/

namespace Sys2Proof.Machine

@[simp] theorem presentsCommand_present (p : Presentation) : (HostAction.present p).presentsCommand = true := rfl
@[simp] theorem presentsCommand_useResult : HostAction.useResult.presentsCommand = false := rfl

/-- A run has ended exactly when only uses of RESULT are left (R107). -/
theorem ended_iff (s : State) : s.ended = true ↔ ∀ a ∈ s.inputs, a = .useResult := by
  simp only [State.ended, List.all_eq_true, Bool.not_eq_true']
  refine forall₂_congr fun a _ => ?_
  cases a <;> simp

/-- No command is left in a command list exactly when it is empty. -/
theorem all_not_presents_commandList (ws : List CmdWord) :
    (commandList ws).all (fun a => !a.presentsCommand) = ws.isEmpty := by
  cases ws <;> simp [commandList]

/-- Success and failure of an ended run exclude each other and leave nothing between them (R107). -/
theorem successful_eq_not_failed (s : State) (h : s.ended = true) : s.successful = !s.failed := by
  simp [State.successful, State.failed, h]

end Sys2Proof.Machine
end

