-- ==== Sys2Proof/Laws/State.lean ====
section
/-! SUPPORT. Laws/State.lean: one lemma per field per update of State, and what the shared operations can do. -/

namespace Sys2Proof.Machine

variable (s : State) (w : CmdWord) (v : ResultWord) (c : FaultCode) (r : Response)

@[simp] theorem reset_inputs : State.reset.inputs = [] := rfl
@[simp] theorem reset_log : State.reset.log = [] := rfl
@[simp] theorem reset_faultRecord : State.reset.faultRecord = [] := rfl

@[simp] theorem complete_inputs : (s.complete w v).inputs = s.inputs := rfl
@[simp] theorem complete_log : (s.complete w v).log = s.log ++ [⟨w, .result v⟩] := rfl
@[simp] theorem complete_faultRecord : (s.complete w v).faultRecord = s.faultRecord := rfl

@[simp] theorem raiseFault_inputs : (s.raiseFault w c).inputs = s.inputs := rfl
@[simp] theorem raiseFault_log : (s.raiseFault w c).log = s.log ++ [⟨w, .fault c⟩] := rfl
@[simp] theorem raiseFault_faultRecord : (s.raiseFault w c).faultRecord = s.faultRecord ++ [⟨w, c⟩] := rfl

@[simp] theorem deliver_result : s.deliver w (.result v) = s.complete w v := rfl
@[simp] theorem deliver_fault : s.deliver w (.fault c) = s.raiseFault w c := rfl

@[simp] theorem deliver_inputs : (s.deliver w r).inputs = s.inputs := by cases r <;> rfl

@[simp] theorem deliver_log : (s.deliver w r).log = s.log ++ [⟨w, r⟩] := by cases r <;> rfl

/-- Giving a response adds to the fault record what the log entry says of faults. -/
@[simp] theorem deliver_faultRecord :
    (s.deliver w r).faultRecord = s.faultRecord ++ (LogEntry.faultEntry ⟨w, r⟩).toList := by
  cases r <;> simp [State.deliver, LogEntry.faultEntry]

@[simp] theorem faultEntry_result : LogEntry.faultEntry ⟨w, .result v⟩ = none := rfl
@[simp] theorem faultEntry_fault : LogEntry.faultEntry ⟨w, .fault c⟩ = some ⟨w, c⟩ := rfl

/-- The whole of what a response does to the run. -/
theorem deliver_eq :
    s.deliver w r =
      { inputs := s.inputs
        log := s.log ++ [⟨w, r⟩]
        faultRecord := s.faultRecord ++ (LogEntry.faultEntry ⟨w, r⟩).toList } := by
  cases r <;> simp [State.deliver, State.complete, State.raiseFault]

@[simp] theorem faultCodeBits_ne_zero : faultCodeBits c ≠ 0#2 := by cases c <;> decide

/-- FAULT is 0 exactly where RESULT carries a value. -/
theorem faultBits_eq_zero_iff : r.faultBits = 0#2 ↔ r.resultBits.isSome = true := by
  cases r <;> simp [Response.faultBits, Response.resultBits]

end Sys2Proof.Machine
end

