-- ==== Sys2Proof/Laws/Step.lean ====
section
/-! SUPPORT. Laws/Step.lean: everything a host action and a step can do. -/

namespace Sys2Proof.Machine

/-- A decoded command delivers its response under its own word. -/
theorem exec_eq (i : Instr) (s : State) : exec i s = .next (s.deliver (encode i) (instrResponse i)) := by
  cases i <;> rfl

@[simp] theorem proper_objection (w : CmdWord) : (Presentation.proper w).objection = none := rfl
@[simp] theorem proper_word (w : CmdWord) : (Presentation.proper w).word = w := rfl

/-- A use of RESULT that goes on changes nothing. -/
theorem hostUseResult_next {s t : State} (h : hostUseResult s = .next t) : t = s := by
  simp only [hostUseResult] at h
  split at h
  · cases h
  · split at h <;> cases h
    rfl

/-- An admitted presentation runs its word, any other is refused. -/
theorem hostPresent_next {p : Presentation} {s t : State} (h : hostPresent p s = .next t) :
    p.objection = none ∧ runWord p.word s = .next t := by
  simp only [hostPresent] at h
  split at h
  · cases h
  · exact ⟨‹_›, h⟩

/-- Everything a step can do when it goes on. -/
theorem step_next {s t : State} (h : step s = .next t) :
    (s.inputs = [] ∧ t = s) ∨
    (∃ rest, s.inputs = .useResult :: rest ∧ t = { s with inputs := rest }) ∨
    (∃ p rest, s.inputs = .present p :: rest ∧ p.objection = none ∧ runWord p.word { s with inputs := rest } = .next t) := by
  simp only [step] at h
  split at h
  · cases h; exact .inl ⟨‹_›, rfl⟩
  · next a rest hs =>
    cases a with
    | useResult => exact .inr (.inl ⟨rest, hs, hostUseResult_next h⟩)
    | present p =>
      obtain ⟨ho, hw⟩ := hostPresent_next h
      exact .inr (.inr ⟨p, rest, hs, ho, hw⟩)

end Sys2Proof.Machine
end

