-- ==== Sys2Proof/Laws/Tables.lean ====
section
/-! SUPPORT. Laws/Tables.lean: table reads. Nothing writes a table, so there is no law of writes (R10, R36). -/

namespace Sys2Proof.Machine

variable (t : Table)

/-- Everything a read can answer: the entry at an index inside the table, two bytes at a time (R25, R32). -/
theorem memRead_eq_some {a n : Nat} {v : ResultWord} :
    memRead t a n = some v ↔ n = 2 ∧ a < t.entries ∧ v = t.entry a := by
  unfold memRead
  split
  · next h => simp [h, eq_comm]
  · next h => simp only [reduceCtorEq, false_iff]; tauto

/-- A ROM image and a read agree at every index (R29). -/
theorem romImage_getElem? (i : Nat) : (romImage t)[i]? = memRead t i 2 := by
  unfold romImage memRead
  by_cases h : i < t.entries <;> simp [h]

end Sys2Proof.Machine
end

