-- ==== Sys2Proof/Tests/Slice0.lean ====
section
/-! SUPPORT. Tests/Slice0.lean: the model's own tests. Every expected value is the spec's (30_encoding.md R56,
95_test_vectors.md) or written out by hand from an encoding. -/

namespace Sys2Proof.Tests

open Sys2Proof Sys2Proof.Machine

/-- A state with something in every field. -/
def busy (a : HostAction) : State where
  inputs := [a, .useResult]
  log := [⟨0x0100FF00#32, .result 0xAAAA#16⟩, ⟨0x00000000#32, .fault .illegalOpcode⟩]
  faultRecord := [⟨0x00000000#32, .illegalOpcode⟩]

/-- The next state of one step, where there is one. -/
def after (s : State) : Option State :=
  match step s with
  | .next t => some t
  | _ => none

/-- The fault or refusal that ends one step, where there is one. -/
def stop (s : State) : Option (Fault ⊕ Refusal) :=
  match step s with
  | .next _ => none
  | .fault f => some (.inl f)
  | .refused r => some (.inr r)

/-! ### Well-formedness: an ill-formed term for each check -/

theorem test_wf_word_dr_rsv : legalWord 0x01010000#32 = false := by decide
theorem test_wf_word_cc_rsv : legalWord 0x02010000#32 = false := by decide
theorem test_wf_word_cc_bit15 : legalWord 0x02008000#32 = false := by decide
theorem test_wf_word_opcode : legalWord 0x03000000#32 = false := by decide
theorem test_wf_word_bit15_is_h7 : legalWord 0x01008000#32 = true := by decide
theorem test_wf_asm_h : (AsmStmt.decodeRow 256 0).wf = false := by decide
theorem test_wf_asm_l : (AsmStmt.decodeRow 0 256).wf = false := by decide
theorem test_wf_asm_color : (AsmStmt.convertColor 32768).wf = false := by decide
theorem test_wf_asm_pixtab : (AsmStmt.pixtab 65536).wf = false := by decide
theorem test_wf_asm_paltab : (AsmStmt.paltab 32768).wf = false := by decide
theorem test_wf_asm_red : (AsmStmt.convertRgb 32 0 0).wf = false := by decide
theorem test_wf_asm_green : (AsmStmt.convertRgb 0 32 0).wf = false := by decide
theorem test_wf_asm_blue : (AsmStmt.convertRgb 0 0 32).wf = false := by decide
theorem test_wf_asm_word : (AsmStmt.word 0x100000000).wf = false := by decide

/-! ### Decoding: words written out from R43 -/

/-- 00000001 00000000 10000000 01000000: OPC 0x01, RSV 0, H 0x80, L 0x40 (R43, R56). -/
theorem test_decode_decodeRow :
    decode 0b00000001000000001000000001000000#32 = .instr (.decodeRow 0x80#8 0x40#8) := by decide

/-- 00000010 00000000 0 00100 10001 10100: OPC 0x02, RSV 0, B5 4, G5 17, R5 20 (R43, V-C15). -/
theorem test_decode_convertColor :
    decode 0b00000010000000000001001000110100#32 = .instr (.convertColor 0x1234#15) := by decide

theorem test_encode_decodeRow : encode (.decodeRow 0x12#8 0x34#8) = 0x01001234#32 := by decide
theorem test_encode_convertColor : encode (.convertColor 0x7FFF#15) = 0x02007FFF#32 := by decide
theorem test_table_word_decodeRow : decodeTableWord 32 0x0100FF00 = some (.decodeRow 0xFF#8 0x00#8) := by decide
theorem test_table_word_refused : decodeTableWord 32 0x02008000 = none := by decide

/-! ### Instructions and faults, one step each -/

/-- V-P17. -/
theorem test_decodeRow_arbitrary :
    after (State.reset.withFetchWord 32 0x01001234) =
      some ⟨[], [⟨0x01001234#32, .result 0x0718#16⟩], []⟩ := by decide

/-- V-P19 with the planes swapped: the wrong-wiring detector. -/
theorem test_decodeRow_swapped : packedRow 0x40#8 0x80#8 = 0x6000#16 := by decide

/-- V-C15: three different channels, G5 above the step of 3. -/
theorem test_convertColor_arbitrary :
    after (State.reset.withFetchWord 32 0x02001234) =
      some ⟨[], [⟨0x02001234#32, .result 0xA464#16⟩], []⟩ := by decide

/-- V-C7: G5 = 15, below the step of 3. -/
theorem test_convertColor_green15 : resultPort 0x020001E0#32 = some 0x03C0#16 := by decide

/-- V-F5: code 1 wins over the reserved bits. -/
theorem test_fault_priority :
    after (State.reset.withFetchWord 32 0x00FF1234) =
      some ⟨[], [⟨0x00FF1234#32, .fault .illegalOpcode⟩], [⟨0x00FF1234#32, .illegalOpcode⟩]⟩ := by decide

/-- V-F11. -/
theorem test_fault_bit15 : faultPort 0x0200FFFF#32 = 2#2 := by decide

/-! ### Assembler -/

/-- R54: letter case of mnemonics, binary and hexadecimal literals, a comment. -/
theorem test_asm_line : assembleLine "  decode_row 0b10000000, 0x40 ; E1".toList = .ok (some 0x01008040#32) := by decide
theorem test_asm_word : assembleLine ".word 0x02008000".toList = .ok (some 0x02008000#32) := by decide
theorem test_asm_refuses : assembleLine "PALTAB 32768".toList = .error .operandOutOfRange := by decide
theorem test_asm_count : assembleLine "DECODE_ROW 1".toList = .error .wrongOperandCount := by decide
theorem test_asm_literal : assembleLine "PIXTAB -1".toList = .error .malformedOperand := by decide
theorem test_asm_mnemonic : assembleLine "ENCODE_ROW 1".toList = .error .unknownMnemonic := by decide

/-- P3 as a text: five lines, two of them raw illegal words. -/
theorem test_asm_text :
    assembleText "DECODE_ROW 0xAA, 0x55\n.word 0\n; green\nCONVERT_RGB 0, 16, 0\n.word 0x02008000".toList =
      .ok [0x0100AA55#32, 0x00000000#32, 0x02000200#32, 0x02008000#32] := by decide
theorem test_disasm : disassembleLine 0x0100FF00#32 = "DECODE_ROW 0xFF, 0x00".toList := by decide

/-! ### Witnesses: for every statement with hypotheses, a state or operands that meet them all, at a boundary where a
range has one, with what the statement then says where that is short -/

theorem witness_DecodeAndEncodeAgree :
    decode 0x0100FFFF#32 = .instr (.decodeRow 0xFF#8 0xFF#8) ∧ encode (.decodeRow 0xFF#8 0xFF#8) = 0x0100FFFF#32 := by
  decide
theorem witness_OperandsAreTheLowFields_row :
    decode 0x0100FF00#32 = .instr (.decodeRow 0xFF#8 0x00#8) ∧ pairIndex 0xFF#8 0x00#8 = 0xFF00 := by decide
theorem witness_OperandsAreTheLowFields_color :
    decode 0x02007FFF#32 = .instr (.convertColor 0x7FFF#15) ∧ (0x7FFF#15 : CgbColor).toNat = 32767 := by decide
theorem witness_UnassignedOpcodeGivesFaultOne : faultPort 0xFFFFFFFF#32 = 1#2 ∧ faultPort 0x03000000#32 = 1#2 := by
  decide
theorem witness_ReservedBitGivesFaultTwo : resultPort 0x01800000#32 = none ∧ faultPort 0x01800000#32 = 2#2 ∧ faultPort 0x02008000#32 = 2#2 := by decide
theorem witness_ChannelCheckNeverFires_red : 31 < 32 ∧ (convertChannels 32 0 0).faultBits = 3#2 := by decide
theorem witness_ChannelCheckNeverFires_green : 31 < 32 ∧ (convertChannels 0 32 0).faultBits = 3#2 := by decide
theorem witness_ChannelCheckNeverFires_blue : 31 < 32 ∧ (convertChannels 0 0 32).faultBits = 3#2 := by decide
theorem witness_DecodeRowGivesThePackedRow :
    7 < 8 ∧ (rowFormula 0x01 0x00 >>> (14 - 2 * 7)) &&& 3 = 2 ∧ pixelFormula 0x01 0x00 7 = 2 := by decide
theorem witness_DecodeRowCornerCases : 7 < 8 ∧ lane (packedRow 0x01#8 0x01#8) 7 = 3#2 := by decide
theorem witness_DecodeRowCornerCases_bit7 :
    (∀ i, i < 7 → (0xFF#8).getLsbD i = (0x7F#8).getLsbD i ∧ (0x00#8).getLsbD i = (0x80#8).getLsbD i) ∧ 0 < 8 ∧
      lane (packedRow 0xFF#8 0x00#8) 0 ≠ lane (packedRow 0x7F#8 0x80#8) 0 ∧
      lane (packedRow 0xFF#8 0x00#8) 7 = lane (packedRow 0x7F#8 0x80#8) 7 := by decide
theorem witness_DecodeRowCornerCases_bit0 :
    (∀ i, i < 8 → 0 < i → (0xFF#8).getLsbD i = (0xFE#8).getLsbD i ∧ (0x00#8).getLsbD i = (0x01#8).getLsbD i) ∧ 7 < 8 ∧
      lane (packedRow 0xFF#8 0x00#8) 7 ≠ lane (packedRow 0xFE#8 0x01#8) 7 ∧
      lane (packedRow 0xFF#8 0x00#8) 0 = lane (packedRow 0xFE#8 0x01#8) 0 := by decide
theorem witness_LaneDependsOnItsTwoBits :
    7 < 8 ∧ lane (packedRow 0x01#8 0x00#8) 7 = lane (packedRow 0xFF#8 0xFE#8) 7 := by decide
theorem witness_RowIsTheBitInterleave : 7 < 8 ∧ (packedRow 0x80#8 0x00#8).getLsbD (2 * 7 + 1) = true := by decide
theorem witness_RowIsInvertible :
    packedRow 0xC3#8 0x5A#8 = packedRow 0xC3#8 0x5A#8 ∧ 7 < 8 ∧ highPlane 0xB14E#16 = 0xC3#8 ∧
      lowPlane 0xB14E#16 = 0x5A#8 := by decide
theorem witness_PlaneSwapSwapsEveryLane :
    0 < 8 ∧ pixel 0x40#8 0x80#8 0 = swap2 (pixel 0x80#8 0x40#8 0) ∧
      lane (packedRow 0x40#8 0x80#8) 0 ≠ lane (packedRow 0x80#8 0x40#8) 0 := by decide
theorem witness_PixtabReadsThePixelTable :
    65535 < 65536 ∧ assemble (.pixtab 65535) = .ok 0x0100FFFF#32 ∧ resultPort 0x0100FFFF#32 = some (pixRom 65535) := by
  decide
theorem witness_GreenIsTheRoundedRational : 0 < 31 ∧ 31 ≤ 31 ∧ roundHalfAway (31 * 63) 31 = 63 := by decide
theorem witness_GreenIntegerFormsAgree :
    31 ≤ 31 ∧ green6 31 = g6Formula 31 ∧ |((63 : Nat) : ℚ) - ((31 : Nat) : ℚ) * 63 / 31| ≤ 1 / 2 ∧
      |(63 : ℚ) - ((31 : Nat) : ℚ) * 63 / 31| < 1 / 62 := by
  refine ⟨by decide, by decide, ?_, ?_⟩ <;> norm_num
theorem witness_GreenIsBitReplication : 31 ≤ 31 ∧ green6 31 = (31 <<< 1) ||| (31 >>> 4) := by decide
theorem witness_GreenIsStrictlyIncreasing :
    30 < 31 ∧ 31 ≤ 31 ∧ green6 30 < green6 31 ∧ green6 31 = green6 31 ∧ 31 = green6 31 >>> 1 ∧ 15 < 31 ∧ green6 16 - green6 15 = 3 := by decide
theorem witness_ColorIsRecovered :
    rgb565 0x1234#15 = rgb565 0x1234#15 ∧ colorOf 0xA464#16 = 0x1234#15 ∧ 32767 < 32768 := by decide
theorem witness_PaltabAndConvertRgb :
    32767 < 32768 ∧ assemble (.paltab 32767) = .ok 0x02007FFF#32 ∧ 31 ≤ 31 ∧
      assemble (.convertRgb 31 31 31) = .ok 0x02007FFF#32 := by decide
theorem witness_CommandsAreTableReads_images :
    storedCorrectly .pix (romImage .pix) ∧ storedCorrectly .pal (romImage .pal) := ⟨rfl, rfl⟩
theorem witness_CommandsAreTableReads_none :
    memRead .pix 65536 2 = none ∧ memRead .pal 32768 2 = none ∧ memRead .pix 0 1 = none := by decide
theorem witness_PixelTableIsComplete : 65535 < 65536 ∧ pairIndex (pairHigh 65535) (pairLow 65535) = 65535 := by decide
theorem witness_EmittedElementKeepsThePixel : 2 ≤ 2 ∧ (pixElement 2 3#2).toNat = 3 := by decide
theorem witness_StepRunsTheDecodedCommand :
    (busy (.present (.proper 0x01008040#32))).inputs = .present (.proper 0x01008040#32) :: [.useResult] ∧
      (Presentation.proper 0x01008040#32).undriven = 0#32 ∧
      (Presentation.proper 0x01008040#32).conduct = .heldUntilTaken ∧
      decode (Presentation.proper 0x01008040#32).word = .instr (.decodeRow 0x80#8 0x40#8) := by decide
theorem witness_RejectedWordIsRecorded :
    (busy (.present (.proper 0x02008000#32))).inputs = .present (.proper 0x02008000#32) :: [.useResult] ∧
      (Presentation.proper 0x02008000#32).undriven = 0#32 ∧
      (Presentation.proper 0x02008000#32).conduct = .heldUntilTaken ∧
      decode (Presentation.proper 0x02008000#32).word = .fault .reservedBits := by decide
theorem witness_ResponseIsAFunctionOfTheWord :
    (busy (.present (.proper 0x01008040#32))).inputs = .present (.proper 0x01008040#32) :: [.useResult] ∧
      (State.startOf [0x01008040#32]).inputs = .present (.proper 0x01008040#32) :: [] := by decide
theorem witness_StepKeepsTheRecordTruthful :
    (busy (.present (.proper 0x00000000#32))).Truthful ∧
      step (busy (.present (.proper 0x00000000#32))) =
        .next ((⟨[.useResult], (busy .useResult).log, (busy .useResult).faultRecord⟩ : State).raiseFault 0x00000000#32
          .illegalOpcode) :=
  ⟨⟨by decide, by decide⟩, by rfl⟩
theorem witness_RecordsOnlyGrow :
    after (busy (.present (.proper 0x02000000#32))) =
      some ⟨[.useResult], (busy .useResult).log ++ [⟨0x02000000#32, .result 0x0000#16⟩], (busy .useResult).faultRecord⟩ := by
  decide
theorem witness_EveryCommandListIsAnsweredInOrder :
    (busy (.present (.proper 0x00000000#32))).inputs = commandList [0x00000000#32] ++ [.useResult] := by decide
/-- After the last response with a use of RESULT still to come, the run has ended (R107); with a command to come it has
not. -/
theorem witness_RunEndsAtTheLastResponse :
    1 ≤ [0x01008040#32].length ∧
      (core.run 1 { State.reset with inputs := commandList [0x01008040#32] ++ List.replicate 1 .useResult }) =
        .next ⟨[.useResult], [⟨0x01008040#32, .result 0x9000#16⟩], []⟩ ∧
      State.successful ⟨[.useResult], [⟨0x01008040#32, .result 0x9000#16⟩], []⟩ = true ∧
      (State.startOf [0x01008040#32]).ended = false ∧ (busy .useResult).ended = true ∧
      (busy .useResult).failed = true ∧ (busy .useResult).successful = false :=
  ⟨by decide, by rfl, by decide, by decide, by decide, by decide, by decide⟩
theorem witness_ReorderingReordersOnlyTheLog :
    List.Perm [0x00000000#32, 0x01008040#32] [0x01008040#32, 0x00000000#32] ∧
      core.run 2 (State.startOf [0x00000000#32, 0x01008040#32]) = .next (State.endOf [0x00000000#32, 0x01008040#32]) ∧
      core.run 2 (State.startOf [0x01008040#32, 0x00000000#32]) = .next (State.endOf [0x01008040#32, 0x00000000#32]) :=
  ⟨List.Perm.swap _ _ _, by rfl, by rfl⟩
theorem witness_InstancesShareNothing :
    System.stepAt [State.reset, State.startOf [0x00000000#32]] 1 =
      .next [State.reset, State.endOf [0x00000000#32]] := by rfl
theorem witness_UseOfResult_value :
    after ⟨[.useResult], [⟨0x0100FF00#32, .result 0xAAAA#16⟩], []⟩ = some ⟨[], [⟨0x0100FF00#32, .result 0xAAAA#16⟩], []⟩ := by
  decide
theorem witness_UseOfResult_fault : stop (busy .useResult) = some (.inl .resultHasNoValue) := by decide
theorem witness_UseOfResult_none : stop ⟨[.useResult], [], []⟩ = some (.inr .noResponseYet) := by decide
theorem witness_ImproperPresentation_undriven :
    stop (busy (.present ⟨0x01000000#32, 0x80000000#32, .heldUntilTaken⟩)) = some (.inr .undrivenCommandBits) := by decide
theorem witness_ImproperPresentation_changed :
    stop (busy (.present ⟨0x01000000#32, 0#32, .changedBeforeTaken⟩)) = some (.inr .commandNotHeld) := by decide
theorem witness_ImproperPresentation_early :
    stop (busy (.present ⟨0x01000000#32, 0#32, .takenBeforeReady⟩)) = some (.inr .responseTakenEarly) := by decide
theorem witness_LatencyChangesNoResponse :
    (busy (.present (.timed 0x01008040#32 Config.latency Config.latency))).inputs =
        .present (.timed 0x01008040#32 Config.latency Config.latency) :: [.useResult] ∧
      Config.latency ≤ Config.latency ∧ HostConduct.ofCycles 0 0 0 = .heldUntilTaken ∧
      HostConduct.ofCycles 3 3 3 = .heldUntilTaken ∧ HostConduct.ofCycles 3 3 2 = .takenBeforeReady ∧
      HostConduct.ofCycles 3 3 4 = .changedBeforeTaken := ⟨rfl, le_rfl, by decide, by decide, by decide, by decide⟩
theorem witness_IdleStepChangesNothing : State.reset.inputs = [] := by decide
theorem witness_PseudoInstructionsExpand :
    65535 ≤ 65535 ∧ assemble (.pixtab 65535) = .ok (BitVec.ofNat 32 (0x01000000 ||| 65535)) ∧ 32767 ≤ 32767 ∧
      assemble (.paltab 32767) = .ok (BitVec.ofNat 32 (0x02000000 ||| 32767)) ∧ 31 ≤ 31 ∧
      assemble (.convertRgb 31 0 31) = .ok (BitVec.ofNat 32 (0x02000000 ||| (31 <<< 10) ||| (0 <<< 5) ||| 31)) := by decide
theorem witness_PseudoInstructionsExpand_disassembly :
    decode 0x0100FF00#32 = .instr (.decodeRow 0xFF#8 0x00#8) ∧ disassemble 0x0100FF00#32 = .decodeRow 0xFF 0x00 ∧
      decode 0x02007FFF#32 = .instr (.convertColor 0x7FFF#15) ∧ disassemble 0x02007FFF#32 = .convertColor 0x7FFF ∧
      decode 0x02008000#32 = .fault .reservedBits ∧ disassemble 0x02008000#32 = .word 0x02008000 := by decide

end Sys2Proof.Tests
end

/-! PROOFS. The table memories and the two datapaths (R10, R25 to R27, R32, R101). -/

namespace Sys2Proof.Machine

/-! ### The pair index takes a pair apart and puts it together (R26, R45) -/

theorem pairIndex_lt (h l : Plane) : pairIndex h l < 65536 := by
  have := h.isLt
  have := l.isLt
  unfold pairIndex
  omega

@[simp] theorem pairHigh_pairIndex (h l : Plane) : pairHigh (pairIndex h l) = h := by
  apply BitVec.eq_of_toNat_eq
  have := h.isLt
  have := l.isLt
  rw [pairHigh, pairIndex, BitVec.toNat_ofNat, Nat.shiftRight_eq_div_pow]
  omega

@[simp] theorem pairLow_pairIndex (h l : Plane) : pairLow (pairIndex h l) = l := by
  apply BitVec.eq_of_toNat_eq
  have := l.isLt
  have mask : pairIndex h l &&& 0xFF = pairIndex h l % 2 ^ 8 := Nat.and_two_pow_sub_one_eq_mod _ 8
  rw [pairLow, mask, pairIndex, BitVec.toNat_ofNat]
  omega

/-! ### The entries are the datapaths' results (R26, R27) -/

@[simp] theorem pixRom_pairIndex (h l : Plane) : pixRom (pairIndex h l) = packedRow h l := by
  rw [pixRom, pairHigh_pairIndex, pairLow_pairIndex]

@[simp] theorem palRom_toNat (c : CgbColor) : palRom c.toNat = rgb565 c := by
  rw [palRom, BitVec.ofNat_toNat, BitVec.setWidth_eq]

/-- A field of five bits is in range (R69). -/
theorem red5_le (c : CgbColor) : red5 c ≤ 31 := Nat.and_le_right
theorem green5_le (c : CgbColor) : green5 c ≤ 31 := Nat.and_le_right
theorem blue5_le (c : CgbColor) : blue5 c ≤ 31 := Nat.and_le_right

/-- The channel check never fires on a colour, so the response is its conversion (R69, R75, R84). -/
@[simp] theorem convertColorResponse_eq (c : CgbColor) : convertColorResponse c = .result (rgb565 c) :=
  if_pos ⟨red5_le c, green5_le c, blue5_le c⟩

/-! ### What a read answers (R25, R32) -/

theorem memRead_of_lt {t : Table} {a : Nat} (h : a < t.entries) : memRead t a 2 = some (t.entry a) :=
  (memRead_eq_some t).2 ⟨rfl, h, rfl⟩

theorem memRead_eq_none_iff {t : Table} {a n : Nat} : memRead t a n = none ↔ n ≠ 2 ∨ t.entries ≤ a := by
  simp only [memRead, ite_eq_right_iff, reduceCtorEq, imp_false]
  omega

/-- A stored image answers as a read does (R29, R101). -/
theorem getElem?_of_storedCorrectly {t : Table} {img : List ResultWord} (h : storedCorrectly t img) (i : Nat) :
    img[i]? = memRead t i 2 := by
  rw [storedCorrectly] at h
  rw [h, romImage_getElem?]

/-- The read at the pair index is DECODE_ROW's RESULT (R26, R59). -/
theorem memRead_pairIndex (h l : Plane) :
    memRead .pix (pairIndex h l) 2 = (instrResponse (.decodeRow h l)).resultBits := by
  calc memRead .pix (pairIndex h l) 2
    _ = some (pixRom (pairIndex h l)) := memRead_of_lt (pairIndex_lt h l)
    _ = some (packedRow h l) := by rw [pixRom_pairIndex]
    _ = (instrResponse (.decodeRow h l)).resultBits := rfl

/-- The read at C is CONVERT_COLOR's RESULT (R27, R76). -/
theorem memRead_color (c : CgbColor) :
    memRead .pal c.toNat 2 = (instrResponse (.convertColor c)).resultBits := by
  calc memRead .pal c.toNat 2
    _ = some (palRom c.toNat) := memRead_of_lt c.isLt
    _ = (Response.result (rgb565 c)).resultBits := by rw [palRom_toNat, Response.resultBits]
    _ = (instrResponse (.convertColor c)).resultBits := by rw [instrResponse, convertColorResponse_eq]

/-- Settles O25: a stored image answers as a read does, and a read at a command's low bits is the command's RESULT. -/
theorem commandsAreTableReads : Obligations.CommandsAreTableReads := by
  unfold Obligations.CommandsAreTableReads
  refine ⟨fun h l img stored => ?_, fun c img stored => ?_, fun _ _ _ => memRead_eq_none_iff.2⟩
  · exact ⟨(getElem?_of_storedCorrectly stored _).trans (memRead_pairIndex h l), memRead_pairIndex h l⟩
  · exact ⟨(getElem?_of_storedCorrectly stored _).trans (memRead_color c), memRead_color c⟩

end Sys2Proof.Machine

/-! PROOFS. The bookkeeping of a run: what a presented word does, what every step keeps (R15, R18, R21, R22, R103). -/

namespace Sys2Proof

/-! ### The decoder, row by row of the opcode map (R44, R50, R83) -/

variable {w : CmdWord}

theorem decode_eq_decodeRow_iff {h l : Plane} :
    decode w = .instr (.decodeRow h l) ↔
      opcField w = 0x01#8 ∧ rsvField w = 0#8 ∧ hField w = h ∧ lField w = l := by
  unfold decode
  split_ifs <;> simp_all

theorem decode_eq_convertColor_iff {c : CgbColor} :
    decode w = .instr (.convertColor c) ↔
      opcField w = 0x02#8 ∧ rsvField w = 0#8 ∧ rsv15Field w = 0#1 ∧ cField w = c := by
  unfold decode
  split_ifs <;> simp_all
  tauto

/-- The fields of format DR fill the word (R43). -/
theorem fieldsDR_append (w : CmdWord) : opcField w ++ rsvField w ++ hField w ++ lField w = w := by
  apply BitVec.eq_of_toNat_eq
  have := w.isLt
  simp only [append_toNat_eq, opcField_toNat, rsvField_toNat, hField_toNat, lField_toNat, Nat.shiftRight_eq_div_pow]
  omega

/-- The fields of format CC fill the word (R43). -/
theorem fieldsCC_append (w : CmdWord) : opcField w ++ rsvField w ++ rsv15Field w ++ cField w = w := by
  apply BitVec.eq_of_toNat_eq
  have := w.isLt
  simp only [append_toNat_eq, opcField_toNat, rsvField_toNat, rsv15Field_toNat, cField_toNat, Nat.shiftRight_eq_div_pow]
  omega

/-- A word that decodes to an instruction is that instruction's word: no bit of a legal word is ignored (R43, R50). -/
theorem encode_of_decode {i : Instr} (h : decode w = .instr i) : encode i = w := by
  cases i with
  | decodeRow hi lo =>
    obtain ⟨hopc, hrsv, rfl, rfl⟩ := decode_eq_decodeRow_iff.1 h
    rw [encode, ← hopc, ← hrsv]
    exact fieldsDR_append w
  | convertColor c =>
    obtain ⟨hopc, hrsv, hrsv15, rfl⟩ := decode_eq_convertColor_iff.1 h
    rw [encode, ← hopc, ← hrsv, ← hrsv15]
    exact fieldsCC_append w

/-- DECODE_ROW's mask covers its opcode and its reserved bits (R44). -/
theorem isDecodeRowWord_iff : isDecodeRowWord w = true ↔ opcField w = 0x01#8 ∧ rsvField w = 0#8 := by
  rw [isDecodeRowWord, beq_iff_eq, and_highMask_eq_iff w 16 _ _ (by decide) (by decide),
    ← BitVec.toNat_inj, ← BitVec.toNat_inj, opcField_toNat, rsvField_toNat, Nat.shiftRight_eq_div_pow,
    Nat.shiftRight_eq_div_pow]
  simp only [BitVec.toNat_ofNat]
  omega

/-- CONVERT_COLOR's mask covers its opcode and its reserved bits, bit 15 among them (R44). -/
theorem isConvertColorWord_iff :
    isConvertColorWord w = true ↔ opcField w = 0x02#8 ∧ rsvField w = 0#8 ∧ rsv15Field w = 0#1 := by
  rw [isConvertColorWord, beq_iff_eq, and_highMask_eq_iff w 15 _ _ (by decide) (by decide),
    ← BitVec.toNat_inj, ← BitVec.toNat_inj, ← BitVec.toNat_inj, opcField_toNat, rsvField_toNat, rsv15Field_toNat,
    Nat.shiftRight_eq_div_pow, Nat.shiftRight_eq_div_pow, Nat.shiftRight_eq_div_pow]
  simp only [BitVec.toNat_ofNat]
  omega

/-- A word is legal exactly when the decoder reads an instruction from it (R50, R51). -/
theorem legalWord_iff_decode : legalWord w = true ↔ ∃ i, decode w = .instr i := by
  rw [legalWord, Bool.or_eq_true, isDecodeRowWord_iff, isConvertColorWord_iff]
  constructor
  · rintro (⟨hopc, hrsv⟩ | ⟨hopc, hrsv, hrsv15⟩)
    · exact ⟨_, decode_eq_decodeRow_iff.2 ⟨hopc, hrsv, rfl, rfl⟩⟩
    · exact ⟨_, decode_eq_convertColor_iff.2 ⟨hopc, hrsv, hrsv15, rfl⟩⟩
  · rintro ⟨_ | _, hi⟩
    · obtain ⟨hopc, hrsv, -⟩ := decode_eq_decodeRow_iff.1 hi
      exact .inl ⟨hopc, hrsv⟩
    · obtain ⟨hopc, hrsv, hrsv15, -⟩ := decode_eq_convertColor_iff.1 hi
      exact .inr ⟨hopc, hrsv, hrsv15⟩

end Sys2Proof

namespace Sys2Proof.Machine

/-! ### The response to a word (R15, R18) -/

theorem respond_of_instr {w : CmdWord} {i : Instr} (h : decode w = .instr i) : respond w = instrResponse i := by
  simp only [respond, h]

theorem respond_of_fault {w : CmdWord} {c : FaultCode} (h : decode w = .fault c) : respond w = .fault c := by
  simp only [respond, h]

/-- No decoded command faults (R59, R76). -/
@[simp] theorem instrResponse_faultBits (i : Instr) : (instrResponse i).faultBits = 0#2 := by
  cases i with
  | decodeRow h l => rfl
  | convertColor c => rw [instrResponse, convertColorResponse_eq, Response.faultBits]

/-- FAULT is 0 exactly where the decoder reads an instruction (R50). -/
theorem faultPort_eq_zero_iff_decode {w : CmdWord} : faultPort w = 0#2 ↔ ∃ i, decode w = .instr i := by
  rw [faultPort]
  cases hd : decode w with
  | instr i => simp [respond_of_instr hd]
  | fault c => simp [respond_of_fault hd, Response.faultBits]

/-! ### Which presentations are admitted (R23, R103, R104) -/

section Objection
variable {p : Presentation}

theorem objection_of_undriven (h : p.undriven ≠ 0#32) : p.objection = some .undrivenCommandBits := if_pos h

theorem objection_of_held (hd : p.undriven = 0#32) (hc : p.conduct = .heldUntilTaken) : p.objection = none := by
  simp [Presentation.objection, hd, hc]

theorem objection_of_changed (hd : p.undriven = 0#32) (hc : p.conduct = .changedBeforeTaken) :
    p.objection = some .commandNotHeld := by
  simp [Presentation.objection, hd, hc]

theorem objection_of_early (hd : p.undriven = 0#32) (hc : p.conduct = .takenBeforeReady) :
    p.objection = some .responseTakenEarly := by
  simp [Presentation.objection, hd, hc]

end Objection

/-! ### A step on a presented command (R37, R106) -/

section Step
variable {s t : State} {p : Presentation} {rest : List HostAction}

theorem step_present (hs : s.inputs = .present p :: rest) : step s = hostPresent p { s with inputs := rest } := by
  simp only [step, hs, hostAct]

theorem step_of_objection {r : Refusal} (hs : s.inputs = .present p :: rest) (ho : p.objection = some r) :
    step s = .refused r := by
  rw [step_present hs]
  simp only [hostPresent, ho]

theorem step_of_admitted (hs : s.inputs = .present p :: rest) (ho : p.objection = none) :
    step s = runWord p.word { s with inputs := rest } := by
  rw [step_present hs]
  simp only [hostPresent, ho]

/-- An admitted word of any kind is answered by `respond`'s response to it, delivered under the presented word. -/
theorem runWord_eq_deliver (w : CmdWord) (s : State) : runWord w s = .next (s.deliver w (respond w)) := by
  cases hd : decode w with
  | instr i =>
    calc runWord w s
      _ = exec i s := by simp only [runWord, hd]
      _ = .next (s.deliver (encode i) (instrResponse i)) := exec_eq i s
      _ = .next (s.deliver w (respond w)) := by rw [encode_of_decode hd, respond_of_instr hd]
  | fault c =>
    rw [respond_of_fault hd, deliver_fault]
    simp only [runWord, hd]

theorem step_proper {w : CmdWord} (hs : s.inputs = .present (.proper w) :: rest) :
    step s = .next (({ s with inputs := rest } : State).deliver w (respond w)) := by
  rw [step_of_admitted hs (proper_objection w), runWord_eq_deliver, proper_word]

/-- Everything a step that goes on does to the run: it takes the first action off the list, and it leaves the
bookkeeping alone or delivers the response to one word. -/
theorem step_next_bookkeeping (h : step s = .next t) :
    t = { s with inputs := s.inputs.drop 1 } ∨
    ∃ w, t = ({ s with inputs := s.inputs.drop 1 } : State).deliver w (respond w) := by
  rcases step_next h with ⟨hs, rfl⟩ | ⟨rest, hs, rfl⟩ | ⟨p, rest, hs, -, hw⟩
  · left; rw [hs, List.drop_nil, ← hs]
  · left; rw [hs, List.drop_one, List.tail_cons]
  · right
    rw [runWord_eq_deliver] at hw
    cases hw
    exact ⟨p.word, by rw [hs, List.drop_one, List.tail_cons]⟩

end Step

/-! ### Truthful bookkeeping (R18, R21) -/

theorem truthful_reset : State.reset.Truthful where
  responses := by simp
  record := rfl

/-- The host's list is no part of the bookkeeping. -/
theorem State.Truthful.withInputs {s : State} (h : s.Truthful) (inputs : List HostAction) :
    State.Truthful { s with inputs := inputs } where
  responses := h.responses
  record := h.record

/-- Delivering the block's own response to a word keeps the bookkeeping truthful. -/
theorem State.Truthful.deliver {s : State} (h : s.Truthful) (w : CmdWord) : (s.deliver w (respond w)).Truthful where
  responses e he := by
    rw [deliver_log, List.mem_append, List.mem_singleton] at he
    rcases he with he | rfl
    · exact h.responses e he
    · rfl
  record := by
    rw [deliver_faultRecord, deliver_log, List.filterMap_append, ← h.record]
    cases hf : LogEntry.faultEntry ⟨w, respond w⟩ <;> simp [hf]

/-- Settles O32: what a step delivers is `respond`'s own response to the presented word. -/
theorem stepKeepsTheRecordTruthful : Obligations.StepKeepsTheRecordTruthful := by
  unfold Obligations.StepKeepsTheRecordTruthful
  intro s s' htruth hstep
  rcases step_next_bookkeeping hstep with rfl | ⟨w, rfl⟩
  · exact htruth.withInputs _
  · exact (htruth.withInputs _).deliver w

/-- Settles O30: both steps deliver `respond w`. -/
theorem responseIsAFunctionOfTheWord : Obligations.ResponseIsAFunctionOfTheWord := by
  unfold Obligations.ResponseIsAFunctionOfTheWord
  intro s t w rest rest' hs ht
  exact ⟨respond w, _, _, step_proper hs, step_proper ht, deliver_log .., deliver_log .., rfl,
    deliver_inputs .., deliver_inputs ..⟩

/-- Settles O33: a delivered response is one log entry, and one fault record entry or none. -/
theorem recordsOnlyGrow : Obligations.RecordsOnlyGrow := by
  unfold Obligations.RecordsOnlyGrow
  intro s s' hstep
  rcases step_next_bookkeeping hstep with rfl | ⟨w, rfl⟩
  · exact ⟨[], [], by simp⟩
  · exact ⟨[⟨w, respond w⟩], _, deliver_log .., deliver_faultRecord .., le_rfl, Option.length_toList_le,
      deliver_inputs ..⟩

/-- Settles O38: both ports and the masks of the opcode map follow the decoder. -/
theorem resultHasAValueIffNoFault : Obligations.ResultHasAValueIffNoFault := by
  unfold Obligations.ResultHasAValueIffNoFault
  exact fun w => ⟨(faultBits_eq_zero_iff (respond w)).symm, faultPort_eq_zero_iff_decode.trans legalWord_iff_decode.symm⟩

/-- Settles O28: an admitted word runs, and running a decoded word is `exec` of its instruction. -/
theorem stepRunsTheDecodedCommand : Obligations.StepRunsTheDecodedCommand := by
  unfold Obligations.StepRunsTheDecodedCommand
  intro s p rest i hs hdriven hheld hdec
  rw [step_of_admitted hs (objection_of_held hdriven hheld)]
  simp only [runWord, hdec]

/-- Settles O29: the response of a rejected word is its fault. -/
theorem rejectedWordIsRecorded : Obligations.RejectedWordIsRecorded := by
  unfold Obligations.RejectedWordIsRecorded
  intro s p rest c hs hdriven hheld hdec
  rw [step_of_admitted hs (objection_of_held hdriven hheld), runWord_eq_deliver, respond_of_fault hdec, deliver_fault,
    State.raiseFault]

/-- Settles O31: every field is empty at reset, and empty bookkeeping is truthful. -/
theorem resetIsEmpty : Obligations.ResetIsEmpty := by
  unfold Obligations.ResetIsEmpty
  exact ⟨reset_log, reset_faultRecord, reset_inputs, truthful_reset⟩

/-- Settles O40: each impropriety has its objection, and a step with an objection is refused for it. -/
theorem improperPresentationIsRefused : Obligations.ImproperPresentationIsRefused := by
  unfold Obligations.ImproperPresentationIsRefused
  intro s p rest hs
  exact ⟨fun hundriven => step_of_objection hs (objection_of_undriven hundriven),
    fun hdriven hchanged => step_of_objection hs (objection_of_changed hdriven hchanged),
    fun hdriven hearly => step_of_objection hs (objection_of_early hdriven hearly)⟩

end Sys2Proof.Machine

/-! PROOFS. The ROM images and the host's copies of their entries (R26, R28 to R31), and runs over command lists (R37,
R104, R107). -/

namespace Sys2Proof.Machine

/-! ### The pixel table covers every pair once (R26, R28, R62) -/

/-- The other way round from `pairHigh_pairIndex` and `pairLow_pairIndex`. -/
theorem pairIndex_pairHigh_pairLow {i : Nat} (hi : i < 65536) : pairIndex (pairHigh i) (pairLow i) = i := by
  have mask : i &&& 0xFF = i % 2 ^ 8 := Nat.and_two_pow_sub_one_eq_mod _ 8
  rw [pairIndex, pairHigh, pairLow, mask, BitVec.toNat_ofNat, BitVec.toNat_ofNat, Nat.shiftRight_eq_div_pow]
  omega

/-- The packed row interleaves the bits of the planes, L in the even places and H in the odd ones (R52, R58). -/
theorem packedRow_getLsbD (h l : Plane) {j : Nat} (hj : j < 16) :
    (packedRow h l).getLsbD j = if j % 2 = 0 then l.getLsbD (j / 2) else h.getLsbD (j / 2) := by
  rw [packedRow, packRow_getLsbD _ j hj, pixelRow_getElem, pixel_getLsbD, show 7 - (7 - j / 2) = j / 2 by omega]
  rcases Nat.mod_two_eq_zero_or_one j with even | odd
  · rw [if_pos even, if_pos even]
  · simp [odd]

@[simp] theorem highPlane_packedRow (h l : Plane) : highPlane (packedRow h l) = h := by
  apply BitVec.eq_of_getLsbD_eq
  intro i hi
  rw [highPlane, BitVec.getLsbD_ofFnLE, dif_pos hi, packedRow_getLsbD h l (by omega), if_neg (by omega)]
  exact congrArg h.getLsbD (show (2 * i + 1) / 2 = i by omega)

@[simp] theorem lowPlane_packedRow (h l : Plane) : lowPlane (packedRow h l) = l := by
  apply BitVec.eq_of_getLsbD_eq
  intro i hi
  rw [lowPlane, BitVec.getLsbD_ofFnLE, dif_pos hi, packedRow_getLsbD h l (by omega), if_pos (by omega)]
  exact congrArg l.getLsbD (show 2 * i / 2 = i by omega)

/-- Two indices of the pixel table with the same entry are one index: the entry gives back both planes (R62). -/
theorem pixRom_inj {i j : Nat} (hi : i < 65536) (hj : j < 65536) (heq : pixRom i = pixRom j) : i = j := by
  have high : pairHigh i = pairHigh j := by simpa [pixRom] using congrArg highPlane heq
  have low : pairLow i = pairLow j := by simpa [pixRom] using congrArg lowPlane heq
  rw [← pairIndex_pairHigh_pairLow hi, high, low, pairIndex_pairHigh_pairLow hj]

@[simp] theorem romImage_length (t : Table) : (romImage t).length = t.entries := by
  rw [romImage, List.length_map, List.length_range]

theorem romImage_pix_nodup : (romImage .pix).Nodup := by
  refine List.nodup_range.map_on fun i hi j hj heq => ?_
  exact pixRom_inj (List.mem_range.1 hi) (List.mem_range.1 hj) heq

/-- Settles O26: the pair index and its planes are inverse to each other, and an entry determines its planes. -/
theorem pixelTableIsComplete : Obligations.PixelTableIsComplete := by
  unfold Obligations.PixelTableIsComplete
  refine ⟨fun _ => pairIndex_pairHigh_pairLow,
    fun h l => ⟨pairIndex_lt h l, pairHigh_pairIndex h l, pairLow_pairIndex h l⟩,
    romImage_length .pix, romImage_pix_nodup, fun i hi => ?_⟩
  exact (romImage_getElem? .pix i).trans (memRead_of_lt hi)

/-! ### The host's copies: bytes of a word and emitted elements (R30, R31) -/

/-- The two bytes of a word, high byte first, make it up. -/
theorem extractHigh_append_extractLow (v : ResultWord) : v.extractLsb' 8 8 ++ v.extractLsb' 0 8 = v := by
  apply BitVec.eq_of_toNat_eq
  have := v.isLt
  rw [append_toNat_eq, BitVec.extractLsb'_toNat, BitVec.extractLsb'_toNat, Nat.shiftRight_eq_div_pow, Nat.shiftRight_zero]
  omega

/-- A host reads back what it stored when it keeps to one byte order (R31). -/
theorem hostWord_hostBytes (o : ByteOrder) (v : ResultWord) : hostWord o (hostBytes o v) = some v := by
  cases o <;> exact congrArg some (extractHigh_append_extractLow v)

/-- Settles O27: in both orders the word read back is the high byte before the low one. -/
theorem hostStoreReadsBack : Obligations.HostStoreReadsBack := by
  unfold Obligations.HostStoreReadsBack
  exact ⟨hostWord_hostBytes, fun _ => rfl⟩

/-- Settles O47: widening a two-bit value keeps it, and the OPEN width is 2 and something more. -/
theorem emittedElementKeepsThePixel : Obligations.EmittedElementKeepsThePixel := by
  unfold Obligations.EmittedElementKeepsThePixel
  exact ⟨fun _ _ hbits => BitVec.toNat_setWidth_of_le hbits, Nat.le_add_right 2 _⟩

/-! ### A run takes its steps one by one (R37, R104) -/

theorem core_run_succ {s t : State} (h : step s = .next t) (k : Nat) : core.run (k + 1) s = core.run k t := by
  simp only [Host.Core.run, core, h]

/-- A run over properly presented words answers each with its own response, in order, and leaves the rest of the host's
list: one delivered response to a step (R104). -/
theorem run_commandList (ws : List CmdWord) {rest : List HostAction} {s : State} (hs : s.inputs = commandList ws ++ rest) :
    core.run ws.length s = .next
      { inputs := rest
        log := s.log ++ ws.map logged
        faultRecord := s.faultRecord ++ (ws.map logged).filterMap LogEntry.faultEntry } := by
  induction ws generalizing s with
  | nil =>
    have hrest : rest = s.inputs := hs.symm
    simp [core, Host.Core.run, hrest]
  | cons w ws ih =>
    rw [List.length_cons, core_run_succ (step_proper hs), ih (deliver_inputs ..)]
    simp [List.filterMap_eq_flatMap_toList, logged]

/-- Settles O34, which is what a run over a command list comes to. -/
theorem everyCommandListIsAnsweredInOrder : Obligations.EveryCommandListIsAnsweredInOrder := by
  unfold Obligations.EveryCommandListIsAnsweredInOrder
  exact fun ws _ _ => run_commandList ws

/-- A run over a command list from reset ends, and there is one end it can come to (R107). -/
theorem run_startOf (ws : List CmdWord) : core.run ws.length (State.startOf ws) = .next (State.endOf ws) :=
  run_commandList ws (s := State.startOf ws) (List.append_nil _).symm

/-! ### Lists of the same commands in another order (R16, R37) -/

section Perm
variable {ws ws' : List CmdWord}

theorem endOf_log_perm (h : ws.Perm ws') : (State.endOf ws).log.Perm (State.endOf ws').log := h.map logged

theorem endOf_faultRecord_perm (h : ws.Perm ws') : (State.endOf ws).faultRecord.Perm (State.endOf ws').faultRecord :=
  (h.map logged).filterMap LogEntry.faultEntry

/-- The run has ended, so its success is an empty fault record, which no reordering fills (R107). -/
theorem endOf_successful_perm (h : ws.Perm ws') : (State.endOf ws).successful = (State.endOf ws').successful :=
  (endOf_faultRecord_perm h).isEmpty_eq

end Perm

/-- Settles O36: both runs come to their one end, and the ends are permuted lists of the same responses. -/
theorem reorderingReordersOnlyTheLog : Obligations.ReorderingReordersOnlyTheLog := by
  unfold Obligations.ReorderingReordersOnlyTheLog
  intro ws ws' t t' hperm ht ht'
  cases (run_startOf ws).symm.trans ht
  cases (run_startOf ws').symm.trans ht'
  exact ⟨endOf_log_perm hperm, endOf_faultRecord_perm hperm, endOf_successful_perm hperm⟩

end Sys2Proof.Machine

/-! PROOFS. Encoding: decoder and encoder, word by word (R42 to R50, R56), and the assembler with its disassembler (R54,
R55). -/

namespace Sys2Proof

/-! ### The fields of an encoded instruction are its operands (R43, R45, R46) -/

@[simp] theorem hField_encode (h l : Plane) : hField (encode (.decodeRow h l)) = h := by
  apply BitVec.eq_of_toNat_eq
  have := h.isLt
  have := l.isLt
  rw [hField_toNat, encode_decodeRow_toNat, Nat.shiftRight_eq_div_pow]
  omega

@[simp] theorem lField_encode (h l : Plane) : lField (encode (.decodeRow h l)) = l := by
  apply BitVec.eq_of_toNat_eq
  have := l.isLt
  rw [lField_toNat, encode_decodeRow_toNat]
  omega

@[simp] theorem rsv15Field_encode (c : CgbColor) : rsv15Field (encode (.convertColor c)) = 0#1 := by
  apply BitVec.eq_of_toNat_eq
  have := c.isLt
  rw [rsv15Field_toNat, encode_convertColor_toNat, Nat.shiftRight_eq_div_pow, BitVec.toNat_ofNat]
  omega

@[simp] theorem cField_encode (c : CgbColor) : cField (encode (.convertColor c)) = c := by
  apply BitVec.eq_of_toNat_eq
  have := c.isLt
  rw [cField_toNat, encode_convertColor_toNat]
  omega

/-- The other way round from `encode_of_decode`: the fixed fields pass the decoder's checks and the others hold the
operands (R50). -/
theorem decode_encode (i : Instr) : decode (encode i) = .instr i := by
  cases i with
  | decodeRow h l =>
    obtain ⟨hrsv, hopc⟩ := Laws.EncodingFields.decodeRow h l
    exact decode_eq_decodeRow_iff.2 ⟨hopc, hrsv, hField_encode h l, lField_encode h l⟩
  | convertColor c =>
    obtain ⟨hrsv, hopc⟩ := Laws.EncodingFields.convertColor c
    exact decode_eq_convertColor_iff.2 ⟨hopc, hrsv, rsv15Field_encode c, cField_encode c⟩

/-- Settles O3: an instruction's fields are its operands, and a legal word has no field beside them. -/
theorem decodeAndEncodeAgree : Obligations.DecodeAndEncodeAgree := by
  unfold Obligations.DecodeAndEncodeAgree
  exact ⟨decode_encode, fun _ _ => encode_of_decode⟩

/-! ### Decoding by mask, match and opcode (R44, R50) -/

section OpcodeMap
variable {w : CmdWord}

theorem exists_decodeRow_iff :
    (∃ h l, decode w = .instr (.decodeRow h l)) ↔ w &&& 0xFFFF0000#32 = 0x01000000#32 := by
  rw [← beq_iff_eq, ← isDecodeRowWord, isDecodeRowWord_iff]
  simp [decode_eq_decodeRow_iff]

theorem exists_convertColor_iff :
    (∃ c, decode w = .instr (.convertColor c)) ↔ w &&& 0xFFFF8000#32 = 0x02000000#32 := by
  rw [← beq_iff_eq, ← isConvertColorWord, isConvertColorWord_iff]
  simp [decode_eq_convertColor_iff]

/-- A word's decoding is one instruction, so only one mask can match (R44). -/
theorem not_both_masks_match :
    ¬(w &&& 0xFFFF0000#32 = 0x01000000#32 ∧ w &&& 0xFFFF8000#32 = 0x02000000#32) := by
  rintro ⟨hrow, hcolor⟩
  obtain ⟨h, l, hdr⟩ := exists_decodeRow_iff.2 hrow
  obtain ⟨c, hcc⟩ := exists_convertColor_iff.2 hcolor
  cases hdr.symm.trans hcc

/-- The opcode field is compared as the number it holds. -/
theorem opcField_eq_iff {v : BitVec 8} : opcField w = v ↔ w.toNat >>> 24 = v.toNat := by
  rw [← BitVec.toNat_inj, opcField_toNat]

/-- The reserved bits are no part of the first check (R87). -/
theorem decode_eq_illegalOpcode_iff :
    decode w = .fault .illegalOpcode ↔ opcField w ≠ 0x01#8 ∧ opcField w ≠ 0x02#8 := by
  unfold decode
  split_ifs <;> simp_all

end OpcodeMap

/-- Settles O2: the masks cover the fields that the decoder checks. -/
theorem decodingFollowsTheOpcodeMap : Obligations.DecodingFollowsTheOpcodeMap := by
  unfold Obligations.DecodingFollowsTheOpcodeMap
  refine ⟨fun _ => exists_decodeRow_iff, fun _ => exists_convertColor_iff, fun _ => not_both_masks_match, fun w => ?_⟩
  rw [decode_eq_illegalOpcode_iff, Ne, Ne, opcField_eq_iff, opcField_eq_iff]
  rfl

/-! ### The operands of a decoded word (R45 to R47) -/

section Operands
variable {w : CmdWord}

theorem operands_of_decodeRow {h l : Plane} (hw : decode w = .instr (.decodeRow h l)) :
    h.toNat = (w.toNat >>> 8) % 256 ∧ l.toNat = w.toNat % 256 := by
  obtain ⟨-, -, rfl, rfl⟩ := decode_eq_decodeRow_iff.1 hw
  exact ⟨hField_toNat w, lField_toNat w⟩

/-- The planes side by side are the low half of the word (R45). -/
theorem pairIndex_of_decodeRow {h l : Plane} (hw : decode w = .instr (.decodeRow h l)) :
    w.toNat % 65536 = Machine.pairIndex h l := by
  obtain ⟨hh, hl⟩ := operands_of_decodeRow hw
  rw [Machine.pairIndex, hh, hl, Nat.shiftRight_eq_div_pow]
  omega

/-- Bit 15 of a legal colour word is 0, so the low half of the word is the colour (R43, R46). -/
theorem operand_of_convertColor {c : CgbColor} (hw : decode w = .instr (.convertColor c)) :
    c.toNat = w.toNat % 65536 := by
  have := c.isLt
  rw [← encode_of_decode hw, encode_convertColor_toNat]
  omega

end Operands

/-- Settles O4: each operand is its field as a number. -/
theorem operandsAreTheLowFields : Obligations.OperandsAreTheLowFields := by
  unfold Obligations.OperandsAreTheLowFields
  refine ⟨fun w h l hw => ?_, fun w c hw => ⟨operand_of_convertColor hw, Nat.le_of_lt_succ c.isLt⟩⟩
  obtain ⟨hh, hl⟩ := operands_of_decodeRow hw
  exact ⟨hh, hl, pairIndex_of_decodeRow hw⟩

end Sys2Proof

namespace Sys2Proof.Machine

/-! ### Operand ranges and the assembler's refusals (R54, R55) -/

@[simp] theorem wf_decodeRow {h l : Nat} : (AsmStmt.decodeRow h l).wf = true ↔ h ≤ 255 ∧ l ≤ 255 := by simp [AsmStmt.wf]
@[simp] theorem wf_convertColor {c : Nat} : (AsmStmt.convertColor c).wf = true ↔ c ≤ 32767 := by simp [AsmStmt.wf]
@[simp] theorem wf_pixtab {i : Nat} : (AsmStmt.pixtab i).wf = true ↔ i ≤ 65535 := by simp [AsmStmt.wf]
@[simp] theorem wf_paltab {c : Nat} : (AsmStmt.paltab c).wf = true ↔ c ≤ 32767 := by simp [AsmStmt.wf]
@[simp] theorem wf_convertRgb {r g b : Nat} : (AsmStmt.convertRgb r g b).wf = true ↔ r ≤ 31 ∧ g ≤ 31 ∧ b ≤ 31 := by
  simp [AsmStmt.wf, and_assoc]
@[simp] theorem wf_word {w : Nat} : (AsmStmt.word w).wf = true ↔ w ≤ 0xFFFFFFFF := by simp [AsmStmt.wf]

theorem assemble_of_wf {st : AsmStmt} (h : st.wf = true) : assemble st = .ok (baseWord (expandStmt st)) := if_pos h

theorem assemble_eq_error_iff {st : AsmStmt} : assemble st = .error .operandOutOfRange ↔ ¬st.wf = true := by
  simp [assemble]

/-- Settles O45: the range check is the only thing that refuses a statement. -/
theorem assemblerRefusesOutOfRange : Obligations.AssemblerRefusesOutOfRange := by
  unfold Obligations.AssemblerRefusesOutOfRange
  simp only [assemble_eq_error_iff, wf_decodeRow, wf_convertColor, wf_pixtab, wf_paltab, wf_convertRgb, wf_word,
    not_and_or, not_le, implies_true, and_self]

/-! ### The words of the statements (R54, R55) -/

@[simp] theorem expandStmt_decodeRow (h l : Nat) : expandStmt (.decodeRow h l) = .decodeRow h l := rfl
@[simp] theorem expandStmt_convertColor (c : Nat) : expandStmt (.convertColor c) = .convertColor c := rfl
@[simp] theorem expandStmt_word (w : Nat) : expandStmt (.word w) = .word w := rfl

/-- An opcode and operands below bit 24 do not overlap: or is sum. -/
theorem opcode_or_eq_add (opc : Nat) {n : Nat} (hn : n < 2 ^ 24) : opc * 2 ^ 24 ||| n = opc * 2 ^ 24 + n := by
  rw [Nat.mul_comm, Nat.two_pow_add_eq_or_of_lt hn]

theorem assemble_decodeRow {h l : Nat} (hh : h ≤ 255) (hl : l ≤ 255) :
    assemble (.decodeRow h l) = .ok (BitVec.ofNat 32 (0x01000000 ||| (h * 256 + l))) := by
  have word : 0x01000000 ||| (h * 256 + l) = 0x01000000 + (h * 256 + l) := opcode_or_eq_add 1 (by omega)
  rw [assemble_of_wf (wf_decodeRow.2 ⟨hh, hl⟩), word, expandStmt_decodeRow, baseWord]
  congr 1
  apply BitVec.eq_of_toNat_eq
  rw [encode_decodeRow_toNat, BitVec.toNat_ofNat, BitVec.toNat_ofNat, BitVec.toNat_ofNat]
  omega

theorem assemble_convertColor {c : Nat} (hc : c ≤ 32767) :
    assemble (.convertColor c) = .ok (BitVec.ofNat 32 (0x02000000 ||| c)) := by
  have word : 0x02000000 ||| c = 0x02000000 + c := opcode_or_eq_add 2 (by omega)
  rw [assemble_of_wf (wf_convertColor.2 hc), word, expandStmt_convertColor, baseWord]
  congr 1
  apply BitVec.eq_of_toNat_eq
  rw [encode_convertColor_toNat, BitVec.toNat_ofNat, BitVec.toNat_ofNat]
  omega

/-- A pseudo-instruction in range assembles to the word of the base command it expands to. -/
theorem assemble_expandStmt {st : AsmStmt} (h : st.wf = true) (h' : (expandStmt st).wf = true) :
    assemble st = assemble (expandStmt st) := by
  rw [assemble_of_wf h, assemble_of_wf h']
  cases st <;> rfl

theorem assemble_pixtab {i : Nat} (hi : i ≤ 65535) :
    assemble (.pixtab i) = .ok (BitVec.ofNat 32 (0x01000000 ||| i)) := by
  have high : i >>> 8 = i / 2 ^ 8 := Nat.shiftRight_eq_div_pow i 8
  have low : i &&& 0xFF = i % 2 ^ 8 := Nat.and_two_pow_sub_one_eq_mod i 8
  have hh : i >>> 8 ≤ 255 := by omega
  have hl : i &&& 0xFF ≤ 255 := by omega
  calc assemble (.pixtab i)
    _ = assemble (.decodeRow (i >>> 8) (i &&& 0xFF)) :=
      assemble_expandStmt (wf_pixtab.2 hi) (wf_decodeRow.2 ⟨hh, hl⟩)
    _ = .ok (BitVec.ofNat 32 (0x01000000 ||| ((i >>> 8) * 256 + (i &&& 0xFF)))) := assemble_decodeRow hh hl
    _ = .ok (BitVec.ofNat 32 (0x01000000 ||| i)) := by
      rw [show (i >>> 8) * 256 + (i &&& 0xFF) = i by omega]

theorem assemble_paltab {c : Nat} (hc : c ≤ 32767) :
    assemble (.paltab c) = .ok (BitVec.ofNat 32 (0x02000000 ||| c)) :=
  (assemble_expandStmt (wf_paltab.2 hc) (wf_convertColor.2 hc)).trans (assemble_convertColor hc)

/-- Channels of five bits make a colour of fifteen (R55, R68). -/
theorem rgbColor_le {r g b : Nat} (hr : r ≤ 31) (hg : g ≤ 31) (hb : b ≤ 31) : rgbColor r g b ≤ 32767 := by
  have blue : b <<< 10 < 2 ^ 15 := by rw [Nat.shiftLeft_eq]; omega
  have green : g <<< 5 < 2 ^ 15 := by rw [Nat.shiftLeft_eq]; omega
  have red : r < 2 ^ 15 := by omega
  exact Nat.le_of_lt_succ (Nat.or_lt_two_pow (Nat.or_lt_two_pow blue green) red)

theorem assemble_convertRgb {r g b : Nat} (hr : r ≤ 31) (hg : g ≤ 31) (hb : b ≤ 31) :
    assemble (.convertRgb r g b) = .ok (BitVec.ofNat 32 (0x02000000 ||| rgbColor r g b)) :=
  have hc := rgbColor_le hr hg hb
  (assemble_expandStmt (wf_convertRgb.2 ⟨hr, hg, hb⟩) (wf_convertColor.2 hc)).trans (assemble_convertColor hc)

/-! ### Disassembly follows the decoder (R54, R55) -/

section Disassembly
variable {w : CmdWord}

theorem disassemble_decodeRow {h l : Plane} (hw : decode w = .instr (.decodeRow h l)) :
    disassemble w = .decodeRow h.toNat l.toNat := by
  simp only [disassemble, hw]

theorem disassemble_convertColor {c : CgbColor} (hw : decode w = .instr (.convertColor c)) :
    disassemble w = .convertColor c.toNat := by
  simp only [disassemble, hw]

theorem disassemble_illegal {f : FaultCode} (hw : decode w = .fault f) : disassemble w = .word w.toNat := by
  simp only [disassemble, hw]

/-- A legal word disassembles to a base command, so a raw word is an illegal one. -/
theorem illegal_of_disassemble {n : Nat} (h : disassemble w = .word n) : ∃ f, decode w = .fault f := by
  cases hw : decode w with
  | fault f => exact ⟨f, rfl⟩
  | instr i =>
    cases i with
    | decodeRow hi lo => cases (disassemble_decodeRow hw).symm.trans h
    | convertColor c => cases (disassemble_convertColor hw).symm.trans h

end Disassembly

/-- Settles O44: a pseudo-instruction has the word of its base command, and disassembly follows the decoder. -/
theorem pseudoInstructionsExpand : Obligations.PseudoInstructionsExpand := by
  unfold Obligations.PseudoInstructionsExpand
  refine ⟨fun i hi => ⟨assemble_pixtab hi, rfl⟩, fun c hc => ⟨assemble_paltab hc, rfl⟩, fun r g b hr hg hb => ⟨?_, rfl⟩,
    fun _ _ _ => disassemble_decodeRow, fun _ _ => disassemble_convertColor, fun _ _ => disassemble_illegal,
    fun _ _ => illegal_of_disassemble⟩
  rw [assemble_convertRgb hr hg hb, rgbColor, Nat.or_assoc, Nat.or_assoc, Nat.or_assoc]

/-- Settles O1: fixed words, each evaluated. -/
theorem workedEncodingsOfTheSpec : Obligations.WorkedEncodingsOfTheSpec := by
  unfold Obligations.WorkedEncodingsOfTheSpec
  decide

end Sys2Proof.Machine

/-! PROOFS. The disassembler's text read back by the assembler (R54, R55). -/

namespace Sys2Proof.Machine

/-! ### A word's statement assembles back to it (R50, R54) -/

theorem assemble_disassemble (w : CmdWord) : assemble (disassemble w) = .ok w := by
  cases hw : decode w with
  | instr i =>
    cases i with
    | decodeRow h l =>
      have inRange : h.toNat ≤ 255 ∧ l.toNat ≤ 255 := ⟨Nat.le_of_lt_succ h.isLt, Nat.le_of_lt_succ l.isLt⟩
      rw [disassemble_decodeRow hw, assemble_of_wf (wf_decodeRow.2 inRange), expandStmt_decodeRow, baseWord,
        BitVec.ofNat_toNat, BitVec.ofNat_toNat, BitVec.setWidth_eq, BitVec.setWidth_eq, encode_of_decode hw]
    | convertColor c =>
      rw [disassemble_convertColor hw, assemble_of_wf (wf_convertColor.2 (Nat.le_of_lt_succ c.isLt)),
        expandStmt_convertColor, baseWord, BitVec.ofNat_toNat, BitVec.setWidth_eq, encode_of_decode hw]
  | fault f =>
    rw [disassemble_illegal hw, assemble_of_wf (wf_word.2 (Nat.le_of_lt_succ w.isLt)), expandStmt_word, baseWord,
      BitVec.ofNat_toNat, BitVec.setWidth_eq]

/-! ### Plain words: no blank, comma or comment sign in them -/

/-- What a mnemonic or a literal is: some characters, none of which ends or parts it. -/
def plainWord (cs : List Char) : Bool := !cs.isEmpty && cs.all fun c => !isBlank c && c != ';' && c != ','

theorem plainWord_iff {cs : List Char} :
    plainWord cs = true ↔ cs ≠ [] ∧ (∀ c ∈ cs, isBlank c = false) ∧ ';' ∉ cs ∧ ',' ∉ cs := by
  simp only [plainWord, Bool.and_eq_true, Bool.not_eq_true', List.isEmpty_eq_false_iff, List.all_eq_true, bne_iff_ne]
  refine and_congr_right fun _ => ⟨fun h => ?_, fun ⟨hblank, hsemi, hcomma⟩ c hc => ?_⟩
  · exact ⟨fun c hc => (h c hc).1.1, fun hc => (h _ hc).1.2 rfl, fun hc => (h _ hc).2 rfl⟩
  · exact ⟨⟨hblank c hc, ne_of_mem_of_not_mem hc hsemi⟩, ne_of_mem_of_not_mem hc hcomma⟩

/-- Nothing is taken off the front of a text that begins with no blank. -/
theorem dropWhile_isBlank_eq_self {cs : List Char} (h : ∀ c ∈ cs.head?, isBlank c = false) :
    cs.dropWhile isBlank = cs := by
  cases cs with
  | nil => rfl
  | cons c cs => exact List.dropWhile_cons_of_neg (by simpa using h c rfl)

theorem trimBlanks_eq_self {cs : List Char} (hhead : ∀ c ∈ cs.head?, isBlank c = false)
    (hlast : ∀ c ∈ cs.getLast?, isBlank c = false) : trimBlanks cs = cs := by
  rw [trimBlanks, dropWhile_isBlank_eq_self hhead, dropWhile_isBlank_eq_self (by simpa using hlast),
    List.reverse_reverse]

theorem trimBlanks_space (cs : List Char) : trimBlanks (' ' :: cs) = trimBlanks cs := rfl

theorem trimBlanks_plainWord {cs : List Char} (h : plainWord cs = true) : trimBlanks cs = cs := by
  obtain ⟨-, hblank, -, -⟩ := plainWord_iff.1 h
  exact trimBlanks_eq_self (fun c hc => hblank c (List.mem_of_mem_head? hc))
    (fun c hc => hblank c (List.mem_of_mem_getLast? hc))

/-- Plain words at both ends keep a text from being trimmed, whatever stands between them. -/
theorem trimBlanks_between_plainWords {first last : List Char} (hfirst : plainWord first = true)
    (mid : List Char) (hlast : plainWord last = true) : trimBlanks (first ++ mid ++ last) = first ++ mid ++ last := by
  obtain ⟨hne, hblank, -, -⟩ := plainWord_iff.1 hfirst
  obtain ⟨hne', hblank', -, -⟩ := plainWord_iff.1 hlast
  apply trimBlanks_eq_self
  · intro c hc
    rw [List.append_assoc, List.head?_append_of_ne_nil _ hne] at hc
    exact hblank c (List.mem_of_mem_head? hc)
  · intro c hc
    rw [List.getLast?_append_of_ne_nil _ hne'] at hc
    exact hblank' c (List.mem_of_mem_getLast? hc)

/-- A line with its mnemonic in front, a plain word at its end and no comment says what its parts say. -/
theorem parseLine_of_parts {word mid last : List Char} (m : Mnemonic) {ops : List Nat} {st : AsmStmt}
    (hword : plainWord word = true) (hmid : ';' ∉ mid) (hlast : plainWord last = true)
    (hm : parseMnemonic word = some m) (hops : parseOperands (' ' :: (mid ++ last)) = some ops)
    (hst : makeStmt m ops = .ok st) : parseLine (word ++ ' ' :: (mid ++ last)) = .ok (some st) := by
  obtain ⟨hne, hblank, hsemi, -⟩ := plainWord_iff.1 hword
  obtain ⟨-, -, hsemi', -⟩ := plainWord_iff.1 hlast
  have body : trimBlanks (stripComment (word ++ ' ' :: (mid ++ last))) = word ++ ' ' :: (mid ++ last) := by
    rw [stripComment_of_notMem _ (by simp [hsemi, hmid, hsemi'])]
    simpa using trimBlanks_between_plainWords hword (' ' :: mid) hlast
  have notBlank : ∀ c ∈ word, (!isBlank c) = true := fun c hc => by rw [hblank c hc]; rfl
  have front : (word ++ ' ' :: (mid ++ last)).takeWhile (fun c => !isBlank c) = word := by
    rw [List.takeWhile_append_of_pos notBlank]
    exact List.append_nil word
  have back : (word ++ ' ' :: (mid ++ last)).dropWhile (fun c => !isBlank c) = ' ' :: (mid ++ last) :=
    List.dropWhile_append_of_pos notBlank
  simp [parseLine, body, front, back, hne, hm, hops, hst, Except.map]

/-! ### Literals as the disassembler prints them (log entry 12) -/

/-- A number in `k` hexadecimal digits. -/
def hexLiteral (k n : Nat) : List Char := '0' :: 'x' :: hexDigits k n

theorem plainWord_hexLiteral (k n : Nat) : plainWord (hexLiteral k n) = true := by
  have digits : (hexDigits k n).all (fun c => !isBlank c && c != ';' && c != ',') = true := by
    refine List.all_eq_true.2 fun c hc => ?_
    obtain ⟨d, hd, rfl⟩ := mem_hexDigits hc
    obtain ⟨-, hblank, hsemi, hcomma⟩ := hexChar_facts d hd
    simp [hblank, hsemi, hcomma]
  exact digits

/-- A literal with room for the number reads back as the number. -/
theorem parseNumber_hexLiteral {k n : Nat} (hk : k ≠ 0) (hn : n < 16 ^ k) : parseNumber (hexLiteral k n) = some n := by
  obtain ⟨j, rfl⟩ := Nat.exists_eq_succ_of_ne_zero hk
  calc parseNumber (hexLiteral (j + 1) n)
    _ = digitsValue 16 0 (hexDigits (j + 1) n) := if_neg (by simp [hexDigits])
    _ = some n := by rw [digitsValue_hexDigits, Nat.mod_eq_of_lt hn]

/-- The blank printed before a literal is no part of it. -/
theorem trimBlanks_space_hexLiteral (k n : Nat) : trimBlanks (' ' :: hexLiteral k n) = hexLiteral k n :=
  (trimBlanks_space _).trans (trimBlanks_plainWord (plainWord_hexLiteral k n))

theorem comma_notMem_space_hexLiteral (k n : Nat) : ',' ∉ ' ' :: hexLiteral k n := by
  obtain ⟨-, -, -, hcomma⟩ := plainWord_iff.1 (plainWord_hexLiteral k n)
  simp [hcomma]

theorem parseOperands_one {k n : Nat} (hk : k ≠ 0) (hn : n < 16 ^ k) :
    parseOperands (' ' :: hexLiteral k n) = some [n] := by
  rw [parseOperands, trimBlanks_space_hexLiteral, if_neg (by simp [hexLiteral]),
    splitAtChar_of_notMem _ _ (comma_notMem_space_hexLiteral k n)]
  simp [trimBlanks_space_hexLiteral, parseNumber_hexLiteral hk hn]

theorem parseOperands_two {k m n : Nat} (hk : k ≠ 0) (hm : m < 16 ^ k) (hn : n < 16 ^ k) :
    parseOperands (' ' :: (hexLiteral k m ++ [',', ' '] ++ hexLiteral k n)) = some [m, n] := by
  have whole := trimBlanks_between_plainWords (plainWord_hexLiteral k m) [',', ' '] (plainWord_hexLiteral k n)
  have pieces : splitAtChar ',' (' ' :: (hexLiteral k m ++ [',', ' '] ++ hexLiteral k n)) =
      [' ' :: hexLiteral k m, ' ' :: hexLiteral k n] := by
    simpa using splitAtChar_append _ _ _ (comma_notMem_space_hexLiteral k m) (comma_notMem_space_hexLiteral k n)
  rw [parseOperands, trimBlanks_space, whole, if_neg (by simp [hexLiteral]), pieces]
  simp [trimBlanks_space_hexLiteral, parseNumber_hexLiteral hk hm, parseNumber_hexLiteral hk hn]

/-! ### Printed lines (R54, R55) -/

section Lines
variable {w : CmdWord}

theorem disassembleLine_decodeRow {h l : Plane} (hw : decode w = .instr (.decodeRow h l)) :
    disassembleLine w =
      "DECODE_ROW".toList ++ ' ' :: (hexLiteral 2 h.toNat ++ [',', ' '] ++ hexLiteral 2 l.toNat) := by
  simp [disassembleLine, hw, hexLiteral]

theorem disassembleLine_convertColor {c : CgbColor} (hw : decode w = .instr (.convertColor c)) :
    disassembleLine w = "CONVERT_COLOR".toList ++ ' ' :: ([] ++ hexLiteral 4 c.toNat) := by
  simp [disassembleLine, hw, hexLiteral]

theorem disassembleLine_illegal {f : FaultCode} (hw : decode w = .fault f) :
    disassembleLine w = ".word".toList ++ ' ' :: ([] ++ hexLiteral 8 w.toNat) := by
  simp [disassembleLine, hw, hexLiteral]

end Lines

theorem parseLine_disassembleLine (w : CmdWord) : parseLine (disassembleLine w) = .ok (some (disassemble w)) := by
  cases hw : decode w with
  | instr i =>
    cases i with
    | decodeRow h l =>
      rw [disassembleLine_decodeRow hw, disassemble_decodeRow hw]
      obtain ⟨-, -, hsemi, -⟩ := plainWord_iff.1 (plainWord_hexLiteral 2 h.toNat)
      exact parseLine_of_parts .decodeRow (by decide) (by simp [hsemi]) (plainWord_hexLiteral 2 l.toNat) (by decide)
        (parseOperands_two two_ne_zero h.isLt l.isLt) rfl
    | convertColor c =>
      rw [disassembleLine_convertColor hw, disassemble_convertColor hw]
      exact parseLine_of_parts .convertColor (by decide) List.not_mem_nil (plainWord_hexLiteral 4 c.toNat) (by decide)
        (parseOperands_one four_ne_zero (c.isLt.trans (by decide))) rfl
  | fault f =>
    rw [disassembleLine_illegal hw, disassemble_illegal hw]
    exact parseLine_of_parts .word (by decide) List.not_mem_nil (plainWord_hexLiteral 8 w.toNat) (by decide)
      (parseOperands_one (by decide) w.isLt) rfl

/-- Settles O46: the printed line is read as the statement that the disassembly makes, whose word is the decoded one. -/
theorem disassemblyAssemblesBack : Obligations.DisassemblyAssemblesBack := by
  unfold Obligations.DisassemblyAssemblesBack
  refine fun w => ⟨assemble_disassemble w, parseLine_disassembleLine w, ?_⟩
  simp only [assembleLine, parseLine_disassembleLine, assemble_disassemble, Except.map]

end Sys2Proof.Machine

/-! PROOFS. Pixel-row decode: the lanes of a packed row, the bit interleave and its inverse, the spec's formulas and the
pseudo-instruction PIXTAB (R58 to R64). -/

namespace Sys2Proof.Machine

section Lanes
variable {h l h' l' : Plane} {p : Nat}

/-! ### A pixel is its two bits (R58) -/

theorem pixel_eq_iff :
    pixel h l p = pixel h' l' p ↔ h.getLsbD (7 - p) = h'.getLsbD (7 - p) ∧ l.getLsbD (7 - p) = l'.getLsbD (7 - p) := by
  constructor
  · intro heq
    have high := congrArg (BitVec.getLsbD · 1) heq
    have low := congrArg (BitVec.getLsbD · 0) heq
    simp only [pixel_getLsbD] at high low
    exact ⟨high, low⟩
  · rintro ⟨high, low⟩
    apply BitVec.eq_of_toNat_eq
    rw [pixel_toNat, pixel_toNat, high, low]

/-- Equal planes give both bits of every pixel the same value. -/
theorem pixel_self (h : Plane) (p : Nat) : pixel h h p = if h.getLsbD (7 - p) then 3#2 else 0#2 := by
  apply BitVec.eq_of_toNat_eq
  rw [pixel_toNat]
  cases h.getLsbD (7 - p) <;> rfl

theorem pixel_swap (h l : Plane) (p : Nat) : pixel l h p = swap2 (pixel h l p) := by
  apply BitVec.eq_of_getLsbD_eq
  intro i hi
  rw [swap2_getLsbD _ i hi, pixel_getLsbD, pixel_getLsbD]
  obtain rfl | rfl : i = 0 ∨ i = 1 := by omega
  · rfl
  · rfl

/-! ### The lanes of a packed row are its pixels (R52, R60) -/

theorem lane_packedRow (h l : Plane) (hp : p < 8) : lane (packedRow h l) p = pixel h l p := by
  apply BitVec.eq_of_getLsbD_eq
  intro i hi
  have place : (14 - 2 * p + i) / 2 = 7 - p := by omega
  rw [lane_getLsbD _ p i hi, packedRow_getLsbD h l (by omega), pixel_getLsbD, place]
  obtain rfl | rfl : i = 0 ∨ i = 1 := by omega
  · rw [if_pos (by omega), if_pos rfl]
  · rw [if_neg (by omega), if_neg one_ne_zero, if_pos rfl]

theorem lane_packedRow_eq_iff (hp : p < 8) :
    lane (packedRow h l) p = lane (packedRow h' l') p ↔
      h.getLsbD (7 - p) = h'.getLsbD (7 - p) ∧ l.getLsbD (7 - p) = l'.getLsbD (7 - p) := by
  rw [lane_packedRow h l hp, lane_packedRow h' l' hp, pixel_eq_iff]

/-- Planes that agree everywhere but at bit `k` give the same lanes everywhere but at position `7 - k`. -/
theorem lane_ne_iff_of_agree_off {k : Nat} (hk : k < 8)
    (agree : ∀ i, i < 8 → i ≠ k → h.getLsbD i = h'.getLsbD i ∧ l.getLsbD i = l'.getLsbD i) (hp : p < 8) :
    lane (packedRow h l) p ≠ lane (packedRow h' l') p ↔
      p = 7 - k ∧ (h.getLsbD k ≠ h'.getLsbD k ∨ l.getLsbD k ≠ l'.getLsbD k) := by
  rw [Ne, lane_packedRow_eq_iff hp, not_and_or]
  by_cases hpk : p = 7 - k
  · rw [show 7 - p = k by omega]
    exact (and_iff_right hpk).symm
  · obtain ⟨high, low⟩ := agree (7 - p) (by omega) (by omega)
    simp [high, low, hpk]

end Lanes

/-- Settles O10: a lane is the pixel at its position, and a pixel is its two bits. -/
theorem laneDependsOnItsTwoBits : Obligations.LaneDependsOnItsTwoBits := by
  unfold Obligations.LaneDependsOnItsTwoBits
  exact fun _ _ _ _ p hp => ⟨lane_packedRow_eq_iff hp, Nat.le_of_lt_succ (lane _ p).isLt⟩

/-- Settles O13: the exchange bit by bit, and the lanes it changes by `lane_packedRow_eq_iff`. -/
theorem planeSwapSwapsEveryLane : Obligations.PlaneSwapSwapsEveryLane := by
  unfold Obligations.PlaneSwapSwapsEveryLane
  refine ⟨fun h l p _ => pixel_swap h l p, by decide, fun h l p hp => ?_, by decide, by decide⟩
  rw [Ne, lane_packedRow_eq_iff hp, eq_comm (a := l.getLsbD _), and_self]

/-- Settles O9: fixed rows evaluated, and the clauses about bits 7 and 0 as cases of one lemma. -/
theorem decodeRowCornerCases : Obligations.DecodeRowCornerCases := by
  unfold Obligations.DecodeRowCornerCases
  refine ⟨by decide, by decide, by decide, by decide, by decide, by decide, by decide, by decide, by decide, by decide,
    fun h p hp => ?_, fun _ _ _ _ agree _ hp => ?_, fun _ _ _ _ agree _ hp => ?_⟩
  · rw [lane_packedRow h h hp, pixel_self]
    cases h.getLsbD (7 - p)
    · exact .inl rfl
    · exact .inr rfl
  · exact lane_ne_iff_of_agree_off (k := 7) (by omega) (fun i _ _ => agree i (by omega)) hp
  · exact lane_ne_iff_of_agree_off (k := 0) (by omega) (fun i hi _ => agree i (by omega) hi) hp

/-! ### The planes back from a row (R61, R62) -/

section Interleave
variable (h l : Plane) (r : ResultWord) {i : Nat}

theorem packedRow_getLsbD_odd (hi : i < 8) : (packedRow h l).getLsbD (2 * i + 1) = h.getLsbD i := by
  rw [packedRow_getLsbD h l (by omega), if_neg (by omega), show (2 * i + 1) / 2 = i by omega]

theorem packedRow_getLsbD_even (hi : i < 8) : (packedRow h l).getLsbD (2 * i) = l.getLsbD i := by
  rw [packedRow_getLsbD h l (by omega), if_pos (by omega), show 2 * i / 2 = i by omega]

theorem highPlane_getLsbD (hi : i < 8) : (highPlane r).getLsbD i = r.getLsbD (2 * i + 1) := by
  rw [highPlane, BitVec.getLsbD_ofFnLE, dif_pos hi]

theorem lowPlane_getLsbD (hi : i < 8) : (lowPlane r).getLsbD i = r.getLsbD (2 * i) := by
  rw [lowPlane, BitVec.getLsbD_ofFnLE, dif_pos hi]

/-- The other way round from `highPlane_packedRow` and `lowPlane_packedRow`. -/
theorem packedRow_highPlane_lowPlane : packedRow (highPlane r) (lowPlane r) = r := by
  apply BitVec.eq_of_getLsbD_eq
  intro j hj
  rw [packedRow_getLsbD _ _ hj, lowPlane_getLsbD r (by omega), highPlane_getLsbD r (by omega)]
  split
  · rw [show 2 * (j / 2) = j by omega]
  · rw [show 2 * (j / 2) + 1 = j by omega]

end Interleave

theorem packedRow_inj {h l h' l' : Plane} (heq : packedRow h l = packedRow h' l') : h = h' ∧ l = l' := by
  have high : h = h' := by simpa using congrArg highPlane heq
  have low : l = l' := by simpa using congrArg lowPlane heq
  exact ⟨high, low⟩

/-- Settles O12: `highPlane` and `lowPlane` undo `packedRow` on both sides. -/
theorem rowIsInvertible : Obligations.RowIsInvertible := by
  unfold Obligations.RowIsInvertible
  exact ⟨fun h l => ⟨highPlane_packedRow h l, lowPlane_packedRow h l⟩, fun _ _ _ _ => packedRow_inj,
    fun r => ⟨highPlane r, lowPlane r, packedRow_highPlane_lowPlane r⟩,
    fun r _ hi => ⟨highPlane_getLsbD r hi, lowPlane_getLsbD r hi⟩⟩

/-! ### Rows and pixels as numbers (R9, R52, R58) -/

section Numbers
variable (h l : Plane)

/-- A lane's number is cut out of the row's number as R52 writes it. -/
theorem lane_toNat (r : ResultWord) (p : Nat) : (lane r p).toNat = (r.toNat >>> (14 - 2 * p)) &&& 3 := by
  have small : (r.toNat >>> (14 - 2 * p)) &&& 3 < 2 ^ 2 := Nat.lt_succ_of_le Nat.and_le_right
  rw [lane, BitVec.toNat_setWidth, BitVec.toNat_and, BitVec.toNat_ushiftRight]
  exact Nat.mod_eq_of_lt small

/-- One bit beside another: or is sum. -/
theorem bit_shiftLeft_or_bit (a b : Bool) : (a.toNat <<< 1) ||| b.toNat = 2 * a.toNat + b.toNat := by
  revert a b; decide

theorem shiftRight_and_one (k : Nat) : (h.toNat >>> k) &&& 1 = (h.getLsbD k).toNat := by
  rw [BitVec.getLsbD, Nat.toNat_testBit, Nat.and_one_is_mod, Nat.shiftRight_eq_div_pow]

/-- The formula of R58 is the sum of its bits. -/
theorem pixelFormula_eq_bits (p : Nat) :
    pixelFormula h.toNat l.toNat p = 2 * (h.getLsbD (7 - p)).toNat + (l.getLsbD (7 - p)).toNat := by
  rw [pixelFormula, shiftRight_and_one, shiftRight_and_one, bit_shiftLeft_or_bit]

/-- The pixel of eight-bit planes is the formula over the naturals. -/
theorem pixelFormula_eq_pixel_toNat (p : Nat) : pixelFormula h.toNat l.toNat p = (pixel h l p).toNat := by
  rw [pixelFormula_eq_bits, pixel_toNat]

/-- A pixel shifted to its place in the row loses no bit. -/
theorem setWidth_shiftLeft_toNat (v : PixelIndex) {k : Nat} (hk : k ≤ 14) :
    (v.setWidth 16 <<< k).toNat = v.toNat <<< k := by
  have fits : v.toNat <<< k < 2 ^ 16 :=
    calc v.toNat <<< k
      _ = v.toNat * 2 ^ k := Nat.shiftLeft_eq _ _
      _ < 2 ^ 2 * 2 ^ 14 := Nat.mul_lt_mul_of_lt_of_le v.isLt (Nat.pow_le_pow_right two_pos hk) (by decide)
  rw [BitVec.toNat_shiftLeft, BitVec.toNat_setWidth_of_le (by decide), Nat.mod_eq_of_lt fits]

/-- The packed row is the formula over the naturals, which therefore fits sixteen bits. -/
theorem rowFormula_eq_packedRow_toNat : rowFormula h.toNat l.toNat = (packedRow h l).toNat := by
  simp only [rowFormula, pixelFormula_eq_pixel_toNat, packedRow, packRow, pixelRow_getElem, BitVec.toNat_or]
  simp (disch := decide) only [setWidth_shiftLeft_toNat, BitVec.toNat_setWidth_of_le]

end Numbers

/-- Settles O8: the delivered row and its lanes are the formulas of R52 and R58 as numbers. -/
theorem decodeRowGivesThePackedRow : Obligations.DecodeRowGivesThePackedRow := by
  unfold Obligations.DecodeRowGivesThePackedRow
  refine fun h l s => ⟨?_, ?_, fun p hp => ⟨?_, pixelFormula_eq_bits h l p⟩⟩
  · rw [rowFormula_eq_packedRow_toNat, ← encode_decodeRow_toNat, BitVec.ofNat_toNat, BitVec.ofNat_toNat,
      BitVec.setWidth_eq, BitVec.setWidth_eq]
    exact exec_eq (.decodeRow h l) s
  · rw [rowFormula_eq_packedRow_toNat]
    exact (packedRow h l).isLt
  · rw [rowFormula_eq_packedRow_toNat, ← lane_toNat, lane_packedRow h l hp, pixelFormula_eq_pixel_toNat]

/-! ### The row as a sum of bits (R61) -/

/-- A number below `4 ^ k` is the sum of its digits in base 4, two bits each, in their places. -/
theorem mod_four_pow_eq_sum (n k : Nat) :
    n % 4 ^ k = ((List.range k).map fun i => ((n >>> (2 * i)) &&& 3) <<< (2 * i)).sum := by
  induction k with
  | zero => simp [Nat.mod_one]
  | succ k ih =>
    have digit : (n >>> (2 * k)) &&& 3 = n / 4 ^ k % 4 := by
      rw [Nat.shiftRight_eq_div_pow, pow_mul]
      exact Nat.and_two_pow_sub_one_eq_mod _ 2
    have place : 2 ^ (2 * k) = 4 ^ k := pow_mul 2 2 k
    rw [List.range_succ, List.map_append, List.sum_append, ← ih, List.map_singleton, List.sum_singleton, digit,
      Nat.shiftLeft_eq, place, Nat.mod_pow_succ, Nat.mul_comm]

/-- Two bits of the row, in their places, are a bit of H beside the bit of L under it. -/
theorem packedRow_digit (h l : Plane) {i : Nat} (hi : i < 8) :
    (((packedRow h l).toNat >>> (2 * i)) &&& 3) <<< (2 * i) =
      ((h.getLsbD i).toNat <<< (2 * i + 1)) ||| ((l.getLsbD i).toNat <<< (2 * i)) := by
  have place : 2 * i = 14 - 2 * (7 - i) := by omega
  have digit : ((packedRow h l).toNat >>> (2 * i)) &&& 3 = ((h.getLsbD i).toNat <<< 1) ||| (l.getLsbD i).toNat := by
    rw [place, ← lane_toNat, lane_packedRow h l (by omega), pixel_toNat, bit_shiftLeft_or_bit,
      show 7 - (7 - i) = i by omega]
  rw [digit, Nat.shiftLeft_or_distrib, ← Nat.shiftLeft_add, Nat.add_comm 1]

/-- Settles O11: the bits of the row one by one, and their sum two by two. -/
theorem rowIsTheBitInterleave : Obligations.RowIsTheBitInterleave := by
  unfold Obligations.RowIsTheBitInterleave
  refine fun h l => ⟨fun i hi => ⟨packedRow_getLsbD_odd h l hi, packedRow_getLsbD_even h l hi⟩, ?_⟩
  rw [← Nat.mod_eq_of_lt (packedRow h l).isLt]
  exact (mod_four_pow_eq_sum _ 8).trans <|
    congrArg List.sum (List.map_congr_left fun i hi => packedRow_digit h l (List.mem_range.1 hi))

/-! ### PIXTAB is the command of its index's planes (R55, R64) -/

theorem assemble_pixtab_eq_encode {i : Nat} (hi : i < 65536) :
    assemble (.pixtab i) = .ok (encode (.decodeRow (pairHigh i) (pairLow i))) :=
  assemble_of_wf (wf_pixtab.2 (Nat.le_of_lt_succ hi))

theorem assemble_decodeRow_eq_encode {i : Nat} (hi : i < 65536) :
    assemble (.decodeRow (i >>> 8) (i &&& 0xFF)) = .ok (encode (.decodeRow (pairHigh i) (pairLow i))) := by
  have high : i >>> 8 ≤ 255 := by rw [Nat.shiftRight_eq_div_pow]; omega
  exact assemble_of_wf (wf_decodeRow.2 ⟨high, Nat.and_le_right⟩)

theorem encode_pairHigh_pairLow_toNat {i : Nat} (hi : i < 65536) :
    (encode (.decodeRow (pairHigh i) (pairLow i))).toNat = 0x01000000 + i := by
  rw [encode_decodeRow_toNat, Nat.add_assoc]
  exact congrArg (0x01000000 + ·) (pairIndex_pairHigh_pairLow hi)

/-- The ports while an encoded instruction is on CMD show its response (R15, R50). -/
theorem resultPort_encode (i : Instr) : resultPort (encode i) = (instrResponse i).resultBits := by
  rw [resultPort, respond_of_instr (decode_encode i)]

theorem faultPort_encode (i : Instr) : faultPort (encode i) = 0#2 :=
  faultPort_eq_zero_iff_decode.2 ⟨i, decode_encode i⟩

/-- The word of an index reads the table there (R64). -/
theorem resultPort_encode_eq_memRead {i : Nat} (hi : i < 65536) :
    resultPort (encode (.decodeRow (pairHigh i) (pairLow i))) = memRead .pix i 2 := by
  rw [resultPort_encode, ← memRead_pairIndex, pairIndex_pairHigh_pairLow hi]

/-- Settles O14: both lines assemble to the command of the planes of `i`, whose RESULT is the read at `i`. -/
theorem pixtabReadsThePixelTable : Obligations.PixtabReadsThePixelTable := by
  unfold Obligations.PixtabReadsThePixelTable
  refine ⟨fun i hi => ⟨_, assemble_pixtab_eq_encode hi, assemble_decodeRow_eq_encode hi,
    encode_pairHigh_pairLow_toNat hi, faultPort_encode _, resultPort_encode_eq_memRead hi,
    (resultPort_encode_eq_memRead hi).trans (memRead_of_lt hi), fun p hp => lane_packedRow _ _ hp⟩, by decide⟩

end Sys2Proof.Machine

/-! PROOFS. Colour conversion: the channels and their check, the green rescale and its rounding, the composed word and
its inverse, and the pseudo-instructions PALTAB and CONVERT_RGB (R68 to R79). -/

namespace Sys2Proof

/-- INVARIANT is no fault of decoding (R50, R84). -/
theorem decode_ne_invariant (w : CmdWord) : decode w ≠ .fault .invariant := by
  unfold decode
  split_ifs <;> simp

end Sys2Proof

namespace Sys2Proof.Machine

/-! ### The channel check (R69, R84) -/

theorem convertChannels_of_out_of_range {r g b : Nat} (h : 31 < r ∨ 31 < g ∨ 31 < b) :
    convertChannels r g b = .fault .invariant :=
  if_neg (by omega)

theorem faultCodeBits_eq_three_iff {c : FaultCode} : faultCodeBits c = 3#2 ↔ c = .invariant := by
  cases c <;> decide

theorem faultPort_ne_three (w : CmdWord) : faultPort w ≠ 3#2 := by
  cases hd : decode w with
  | instr i =>
    rw [faultPort, respond_of_instr hd, instrResponse_faultBits]
    decide
  | fault c =>
    rw [faultPort, respond_of_fault hd, Response.faultBits, Ne, faultCodeBits_eq_three_iff]
    rintro rfl
    exact decode_ne_invariant w hd

/-- Settles O7: the check faults outside the range, and a fault of decoding is never INVARIANT. -/
theorem channelCheckNeverFires : Obligations.ChannelCheckNeverFires := by
  unfold Obligations.ChannelCheckNeverFires
  refine ⟨fun c => ⟨red5_le c, green5_le c, blue5_le c⟩, fun r g b h => ?_, faultPort_ne_three⟩
  rw [convertChannels_of_out_of_range h]
  rfl

/-! ### The green rescale as bit replication (R72 to R74) -/

section Green
variable {g : Nat}

/-- The green channel doubled, with its top bit repeated below (R73). -/
theorem green6_eq_two_mul_add (hg : g ≤ 31) : green6 g = 2 * g + g / 16 := by
  rw [green6]
  rcases Nat.lt_or_ge g 16 with below | above
  · omega
  · have top : g / 16 = 1 := by omega
    omega

theorem green6_le (hg : g ≤ 31) : green6 g ≤ 63 := by
  rw [green6_eq_two_mul_add hg]
  omega

theorem green6_shiftRight_one (hg : g ≤ 31) : green6 g >>> 1 = g := by
  rw [green6_eq_two_mul_add hg, Nat.shiftRight_eq_div_pow]
  omega

theorem green6_eq_shiftLeft_or_shiftRight (hg : g ≤ 31) : green6 g = (g <<< 1) ||| (g >>> 4) := by
  have top : g >>> 4 = g / 16 := Nat.shiftRight_eq_div_pow g 4
  have oneBit : g / 16 < 2 ^ 1 := by omega
  rw [green6_eq_two_mul_add hg, top, ← Nat.shiftLeft_add_eq_or_of_lt oneBit, Nat.shiftLeft_eq, Nat.mul_comm, pow_one]

theorem green6_lt_green6 {a b : Nat} (hab : a < b) (hb : b ≤ 31) : green6 a < green6 b := by
  rw [green6_eq_two_mul_add hb, green6_eq_two_mul_add (by omega)]
  omega

theorem green6_inj {a b : Nat} (ha : a ≤ 31) (hb : b ≤ 31) (heq : green6 a = green6 b) : a = b := by
  rw [← green6_shiftRight_one ha, heq, green6_shiftRight_one hb]

/-- The step is 3 where the top bit of the channel comes in, and 2 elsewhere (R74). -/
theorem green6_succ_sub (hg : g < 31) : green6 (g + 1) - green6 g = if g = 15 then 3 else 2 := by
  rw [green6_eq_two_mul_add hg, green6_eq_two_mul_add hg.le]
  split_ifs <;> omega

end Green

/-- Settles O20: the 32 entries evaluated. -/
theorem greenTable : Obligations.GreenTable := by
  unfold Obligations.GreenTable
  decide

/-- Settles O21: both halves from the form `2 * g + g / 16`. -/
theorem greenIsBitReplication : Obligations.GreenIsBitReplication := by
  unfold Obligations.GreenIsBitReplication
  exact fun g hg => ⟨green6_eq_shiftLeft_or_shiftRight hg, (green6_shiftRight_one hg).symm⟩

/-- Settles O22: growth and steps from the form `2 * g + g / 16`, the image counted. -/
theorem greenIsStrictlyIncreasing : Obligations.GreenIsStrictlyIncreasing := by
  unfold Obligations.GreenIsStrictlyIncreasing
  exact ⟨rfl, rfl, fun _ _ => green6_lt_green6, fun _ _ => green6_inj, fun _ hg => (green6_shiftRight_one hg).symm,
    fun _ => green6_succ_sub, by decide⟩

/-! ### The green rescale as rounding (R9, R70, R71) -/

/-- The integer form of the rounding is the library's `round` of the exact rational (R9). -/
theorem roundHalfAway_eq_round (n : Nat) {d : Nat} (hd : 0 < d) :
    ((roundHalfAway n d : Nat) : ℤ) = round ((n : ℚ) / d) := by
  have hd' : (d : ℚ) ≠ 0 := Nat.cast_ne_zero.2 hd.ne'
  have half : (n : ℚ) / d + 1 / 2 = ((2 * n + d : Nat) : ℚ) / (2 * d : Nat) := by
    push_cast
    field_simp
  rw [round_eq, half, Rat.floor_natCast_div_natCast, roundHalfAway]
  push_cast
  rfl

theorem green6_eq_g6Formula (g : Nat) : green6 g = g6Formula g := by
  rw [green6, g6Formula, roundHalfAway]
  omega

theorem green6_eq_round (g : Nat) : ((green6 g : Nat) : ℤ) = round ((g : ℚ) * 63 / 31) := by
  rw [green6_eq_g6Formula, g6Formula, roundHalfAway_eq_round _ (by decide)]
  push_cast
  rfl

/-- The whole part of the exact rational is even, so its fraction is that of `g / 31` (R71). -/
theorem fract_mul_63_div_31 (g : Nat) : Int.fract ((g : ℚ) * 63 / 31) = ((g % 31 : Nat) : ℚ) / 31 := by
  have split : (g : ℚ) * 63 / 31 = ((2 * g : Nat) : ℚ) + (g : ℚ) / (31 : Nat) := by
    push_cast
    ring
  rw [split, Int.fract_natCast_add, Int.fract_div_natCast_eq_div_natCast_mod, Nat.cast_ofNat]

/-- A fraction of denominator 31 is no nearer to one half than 1/62 (R71). -/
theorem div_31_far_from_half (k : Nat) : (1 / 62 : ℚ) ≤ |(k : ℚ) / 31 - 1 / 2| := by
  rw [le_abs]
  rcases Nat.lt_or_ge k 16 with below | above
  · have : (k : ℚ) ≤ 15 := by exact_mod_cast Nat.le_of_lt_succ below
    exact .inr (by linarith)
  · have : (16 : ℚ) ≤ k := by exact_mod_cast above
    exact .inl (by linarith)

/-- So the rounding moves the exact rational by at most 15/31, short of one half (R71). -/
theorem green6_near (g : Nat) : |(green6 g : ℚ) - (g : ℚ) * 63 / 31| ≤ 15 / 31 := by
  have low : 31 * green6 g ≤ 63 * g + 15 := by rw [green6]; omega
  have high : 63 * g ≤ 31 * green6 g + 15 := by rw [green6]; omega
  have low' : (31 : ℚ) * green6 g ≤ 63 * g + 15 := by exact_mod_cast low
  have high' : (63 : ℚ) * g ≤ 31 * green6 g + 15 := by exact_mod_cast high
  rw [abs_le]
  constructor <;> linarith

/-- Every nearest integer is G6: two integers within 1/2 + 15/31 of each other are equal (R71). -/
theorem eq_green6_of_near {g m : Nat} (h : |(m : ℚ) - (g : ℚ) * 63 / 31| ≤ 1 / 2) : m = green6 g := by
  obtain ⟨l, u⟩ := abs_le.1 h
  obtain ⟨l', u'⟩ := abs_le.1 (green6_near g)
  have lt : (m : ℚ) < green6 g + 1 := by linarith
  have gt : (green6 g : ℚ) < m + 1 := by linarith
  exact le_antisymm (Nat.le_of_lt_succ (by exact_mod_cast lt)) (Nat.le_of_lt_succ (by exact_mod_cast gt))

/-- An evaluation with an error below 1/62 stays within one half of G6, since 15/31 + 1/62 = 1/2 (R71). -/
theorem floor_eq_green6_of_error_lt {g : Nat} {x : ℚ} (h : |x - (g : ℚ) * 63 / 31| < 1 / 62) :
    ⌊x + 1 / 2⌋ = ((green6 g : Nat) : ℤ) := by
  obtain ⟨l, u⟩ := abs_lt.1 h
  obtain ⟨l', u'⟩ := abs_le.1 (green6_near g)
  rw [Int.floor_eq_iff, Int.cast_natCast]
  constructor <;> linarith

/-- Settles O18: `roundHalfAway` is the library's `round`, and the fraction stays 1/62 away from a tie. -/
theorem greenIsTheRoundedRational : Obligations.GreenIsTheRoundedRational := by
  unfold Obligations.GreenIsTheRoundedRational
  refine ⟨fun n d hd => ⟨?_, ?_⟩, fun g _ => ⟨?_, fun tie => ?_⟩⟩
  · rw [roundHalfAway_eq_round n hd, round_eq]
  · have near := abs_sub_round ((n : ℚ) / d)
    rwa [← roundHalfAway_eq_round n hd, Int.cast_natCast, abs_sub_comm] at near
  · rw [green6_eq_round, round_eq]
  · have far := div_31_far_from_half (g % 31)
    rw [← fract_mul_63_div_31, tie, sub_self, abs_zero] at far
    exact absurd far (by norm_num)

/-- Settles O19: the integer forms by division, the rest from the distance to a tie and the distance to G6. -/
theorem greenIntegerFormsAgree : Obligations.GreenIntegerFormsAgree := by
  unfold Obligations.GreenIntegerFormsAgree
  refine fun g _ => ⟨green6_eq_g6Formula g, rfl, ?_, by omega, fract_mul_63_div_31 g, ?_,
    fun _ => eq_green6_of_near, fun _ => floor_eq_green6_of_error_lt⟩
  · rw [green6]
    omega
  · rw [fract_mul_63_div_31]
    exact div_31_far_from_half _

/-! ### The composed word (R75, R77) -/

section Composed
variable (c : CgbColor)

/-- The three fields fill the word and do not overlap (R75). -/
theorem rgb565_toNat : (rgb565 c).toNat = red5 c * 2048 + green6 (green5 c) * 32 + blue5 c := by
  have := red5_le c
  have hg := green6_le (green5_le c)
  have hb := blue5_le c
  rw [rgb565, composeRgb565, fields_or_eq_add _ _ _ (by omega) (by omega), BitVec.toNat_ofNat]
  omega

/-- The formula of R11 over the naturals is the sixteen-bit word. -/
theorem rgb565Formula_eq_rgb565_toNat : rgb565Formula c.toNat = (rgb565 c).toNat := by
  have hg := green6_le (green5_le c)
  have hb := blue5_le c
  calc rgb565Formula c.toNat
    _ = (red5 c <<< 11) ||| (g6Formula (green5 c) <<< 5) ||| blue5 c := rfl
    _ = (red5 c <<< 11) ||| (green6 (green5 c) <<< 5) ||| blue5 c := by rw [green6_eq_g6Formula]
    _ = red5 c * 2048 + green6 (green5 c) * 32 + blue5 c := fields_or_eq_add _ _ _ (by omega) (by omega)
    _ = (rgb565 c).toNat := (rgb565_toNat c).symm

theorem rgb565_red : (rgb565 c).toNat / 2048 = red5 c := by
  rw [rgb565_toNat]
  exact fields_high _ _ _ (Nat.lt_succ_of_le (green6_le (green5_le c))) (Nat.lt_succ_of_le (blue5_le c))

theorem rgb565_green : (rgb565 c).toNat / 32 % 64 = green6 (green5 c) := by
  rw [rgb565_toNat]
  exact fields_mid _ _ _ (Nat.lt_succ_of_le (green6_le (green5_le c))) (Nat.lt_succ_of_le (blue5_le c))

theorem rgb565_blue : (rgb565 c).toNat % 32 = blue5 c := by
  rw [rgb565_toNat]
  exact fields_low _ _ _ (Nat.lt_succ_of_le (blue5_le c))

end Composed

/-- Settles O15: the delivered word is the formula of R75 as a number. -/
theorem convertColorGivesRgb565 : Obligations.ConvertColorGivesRgb565 := by
  unfold Obligations.ConvertColorGivesRgb565
  refine fun c s => ⟨?_, ?_, ?_⟩
  · rw [rgb565Formula_eq_rgb565_toNat, ← encode_convertColor_toNat, BitVec.ofNat_toNat, BitVec.ofNat_toNat,
      BitVec.setWidth_eq, BitVec.setWidth_eq, exec_eq, instrResponse, convertColorResponse_eq]
    rfl
  · rw [rgb565Formula_eq_rgb565_toNat, rgb565_toNat, green6_eq_g6Formula]
  · rw [rgb565Formula_eq_rgb565_toNat]
    exact Nat.le_of_lt_succ (rgb565 c).isLt

/-- Settles O16: the fields of the composed word are the channels, green rescaled. -/
theorem colorChannelsPassThrough : Obligations.ColorChannelsPassThrough := by
  unfold Obligations.ColorChannelsPassThrough
  refine ⟨fun c => ⟨?_, ?_, ?_⟩, by decide, by decide⟩
  · rw [Nat.shiftRight_eq_div_pow, ← red5_eq]
    exact rgb565_red c
  · have := c.isLt
    rw [rgb565_blue, blue5_eq, Nat.shiftRight_eq_div_pow]
    omega
  · rw [Nat.shiftRight_eq_div_pow, Nat.shiftRight_eq_div_pow, ← green6_eq_g6Formula]
    exact (rgb565_green c).trans (congrArg green6 (green5_eq c))

/-! ### The colour back from the word (R79) -/

/-- Channels of five bits do not overlap in the colour: or is sum (R55, R78). -/
theorem rgbColor_eq_add {r g b : Nat} (hr : r ≤ 31) (hg : g ≤ 31) : rgbColor r g b = b * 1024 + g * 32 + r := by
  have high : (b <<< 10) ||| (g <<< 5) = ((b <<< 5) + g) <<< 5 := by
    rw [Nat.shiftLeft_add_eq_or_of_lt (i := 5) (by omega), Nat.shiftLeft_or_distrib, ← Nat.shiftLeft_add]
  rw [rgbColor, high, ← Nat.shiftLeft_add_eq_or_of_lt (i := 5) (by omega), Nat.shiftLeft_eq, Nat.shiftLeft_eq]
  omega

/-- A field moved to its place in the colour loses no bit. -/
theorem field_shiftLeft_toNat {n k : Nat} (v : BitVec n) (hk : n + k ≤ 15) :
    (v.setWidth 15 <<< k).toNat = v.toNat <<< k := by
  have fits : v.toNat <<< k < 2 ^ 15 :=
    calc v.toNat <<< k
      _ = v.toNat * 2 ^ k := Nat.shiftLeft_eq _ _
      _ < 2 ^ n * 2 ^ k := Nat.mul_lt_mul_of_pos_right v.isLt (Nat.two_pow_pos k)
      _ = 2 ^ (n + k) := (pow_add 2 n k).symm
      _ ≤ 2 ^ 15 := Nat.pow_le_pow_right two_pos hk
  rw [BitVec.toNat_shiftLeft, BitVec.toNat_setWidth_of_le (by omega), Nat.mod_eq_of_lt fits]

/-- The inverse of R79 is CONVERT_RGB's colour of the word's three fields, green without its low bit. -/
theorem colorOf_toNat (r : ResultWord) :
    (colorOf r).toNat = rgbColor (r.toNat / 2048) (r.toNat / 32 % 64 / 2) (r.toNat % 32) := by
  have red : r.toNat / 2048 % 32 = r.toNat / 2048 := by have := r.isLt; omega
  rw [colorOf, BitVec.toNat_or, BitVec.toNat_or, field_shiftLeft_toNat _ (by decide),
    field_shiftLeft_toNat _ (by decide), BitVec.toNat_setWidth_of_le (by decide), BitVec.toNat_ushiftRight]
  simp [rgbColor, BitVec.extractLsb'_toNat, Nat.shiftRight_eq_div_pow, red]

@[simp] theorem colorOf_rgb565 (c : CgbColor) : colorOf (rgb565 c) = c := by
  apply BitVec.eq_of_toNat_eq
  have green : green6 (green5 c) / 2 = green5 c := green6_shiftRight_one (green5_le c)
  rw [colorOf_toNat, rgb565_red, rgb565_green, rgb565_blue, green, rgbColor_eq_add (red5_le c) (green5_le c),
    color_toNat_eq c]

theorem rgb565_inj {a b : CgbColor} (heq : rgb565 a = rgb565 b) : a = b := by
  rw [← colorOf_rgb565 a, heq, colorOf_rgb565]

theorem color_ofNat_toNat {i : Nat} (hi : i < 32768) : (BitVec.ofNat 15 i : CgbColor).toNat = i :=
  (BitVec.toNat_ofNat i 15).trans (Nat.mod_eq_of_lt hi)

theorem palRom_inj {i j : Nat} (hi : i < 32768) (hj : j < 32768) (heq : palRom i = palRom j) : i = j := by
  have same := congrArg BitVec.toNat (rgb565_inj heq)
  rwa [color_ofNat_toNat hi, color_ofNat_toNat hj] at same

theorem romImage_pal_nodup : (romImage .pal).Nodup := by
  refine List.nodup_range.map_on fun i hi j hj heq => ?_
  exact palRom_inj (List.mem_range.1 hi) (List.mem_range.1 hj) heq

/-- Settles O23: `colorOf` undoes the conversion, so an entry determines its colour. -/
theorem colorIsRecovered : Obligations.ColorIsRecovered := by
  unfold Obligations.ColorIsRecovered
  refine ⟨colorOf_rgb565, fun _ _ => rgb565_inj, romImage_length .pal, romImage_pal_nodup, fun c hc => ?_⟩
  exact (romImage_getElem? .pal c).trans (memRead_of_lt hc)

/-! ### PALTAB and CONVERT_RGB are CONVERT_COLOR (R55, R78) -/

section Pseudo
variable {i : Nat}

theorem assemble_convertColor_eq_encode (hi : i < 32768) :
    assemble (.convertColor i) = .ok (encode (.convertColor (BitVec.ofNat 15 i))) :=
  assemble_of_wf (wf_convertColor.2 (Nat.le_of_lt_succ hi))

theorem assemble_paltab_eq_encode (hi : i < 32768) :
    assemble (.paltab i) = .ok (encode (.convertColor (BitVec.ofNat 15 i))) :=
  assemble_of_wf (wf_paltab.2 (Nat.le_of_lt_succ hi))

/-- The word of a colour reads the palette there (R78). -/
theorem resultPort_encode_color_eq_memRead (hi : i < 32768) :
    resultPort (encode (.convertColor (BitVec.ofNat 15 i))) = memRead .pal i 2 := by
  rw [resultPort_encode, ← memRead_color, color_ofNat_toNat hi]

end Pseudo

section Rgb
variable {r g b : Nat}

theorem channels_rgbColor (hr : r ≤ 31) (hg : g ≤ 31) (hb : b ≤ 31) :
    red5 (BitVec.ofNat 15 (rgbColor r g b)) = r ∧ green5 (BitVec.ofNat 15 (rgbColor r g b)) = g ∧
      blue5 (BitVec.ofNat 15 (rgbColor r g b)) = b := by
  rw [red5_eq, green5_eq, blue5_eq, color_ofNat_toNat (Nat.lt_succ_of_le (rgbColor_le hr hg hb)), rgbColor_eq_add hr hg]
  omega

theorem assemble_convertRgb_eq_convertColor (hr : r ≤ 31) (hg : g ≤ 31) (hb : b ≤ 31) :
    assemble (.convertRgb r g b) = assemble (.convertColor (rgbColor r g b)) :=
  assemble_expandStmt (wf_convertRgb.2 ⟨hr, hg, hb⟩) (wf_convertColor.2 (rgbColor_le hr hg hb))

end Rgb

/-- Settles O24: PALTAB and CONVERT_RGB assemble to the command of their colour, whose RESULT is the read there. -/
theorem paltabAndConvertRgb : Obligations.PaltabAndConvertRgb := by
  unfold Obligations.PaltabAndConvertRgb
  refine ⟨fun c hc => ⟨_, assemble_paltab_eq_encode hc, assemble_convertColor_eq_encode hc, ?_, faultPort_encode _,
    resultPort_encode_color_eq_memRead hc, (resultPort_encode_color_eq_memRead hc).trans (memRead_of_lt hc)⟩,
    fun r g b hr hg hb => ?_, by decide, by decide⟩
  · rw [encode_convertColor_toNat, color_ofNat_toNat hc]
  · have expand := assemble_convertRgb_eq_convertColor hr hg hb
    have word := assemble_convertColor_eq_encode (Nat.lt_succ_of_le (rgbColor_le hr hg hb))
    exact ⟨expand, _, expand.trans word, channels_rgbColor hr hg hb⟩

end Sys2Proof.Machine

/-! PROOFS. The faults of decoding on port FAULT (R81 to R87), the host's use of RESULT (R86, R106) and instances side
by side (R95). -/

namespace Sys2Proof

/-! ### The reserved bits and the fault they give (R46, R48, R83) -/

section ReservedBits
variable {w : CmdWord}

theorem rsvField_ne_zero_iff : rsvField w ≠ 0#8 ↔ (w.toNat >>> 16) % 256 ≠ 0 := by
  rw [Ne, ← BitVec.toNat_inj, rsvField_toNat]
  rfl

theorem rsv15Field_ne_zero_iff : rsv15Field w ≠ 0#1 ↔ w.getLsbD 15 = true := by
  have oneBit : ∀ v : BitVec 1, v ≠ 0#1 ↔ v.getLsbD 0 = true := by decide
  rw [oneBit, rsv15Field, cmdField_getLsbD]
  rfl

/-- Bit 15 is reserved under CONVERT_COLOR's opcode only (R45, R46). -/
theorem decode_eq_reservedBits_iff :
    decode w = .fault .reservedBits ↔
      (opcField w = 0x01#8 ∧ rsvField w ≠ 0#8) ∨
      (opcField w = 0x02#8 ∧ (rsvField w ≠ 0#8 ∨ rsv15Field w ≠ 0#1)) := by
  unfold decode
  split_ifs <;> simp_all

end ReservedBits

end Sys2Proof

namespace Sys2Proof.Machine

/-! ### Port FAULT names the fault of decoding (R15, R81, R86) -/

section FaultPort
variable {w : CmdWord} {c : FaultCode}

theorem faultCodeBits_injective : Function.Injective faultCodeBits := by
  intro a b
  cases a <;> cases b <;> decide

/-- A code on port FAULT is the decoder's, since no decoded command faults (R50, R81). -/
theorem faultPort_eq_faultCodeBits_iff : faultPort w = faultCodeBits c ↔ decode w = .fault c := by
  rw [faultPort]
  cases hd : decode w with
  | instr i => simp [respond_of_instr hd, (faultCodeBits_ne_zero c).symm]
  | fault d => simp [respond_of_fault hd, Response.faultBits, faultCodeBits_injective.eq_iff]

theorem resultPort_of_fault (h : decode w = .fault c) : resultPort w = none := by
  rw [resultPort, respond_of_fault h, Response.resultBits]

/-- A code on port FAULT leaves port RESULT without a value (R86). -/
theorem resultPort_of_faultPort (h : faultPort w = faultCodeBits c) : resultPort w = none :=
  resultPort_of_fault (faultPort_eq_faultCodeBits_iff.1 h)

end FaultPort

/-- Settles O5: code 1 is the decoder's ILLEGAL_OPCODE, which it gives by the opcode alone. -/
theorem unassignedOpcodeGivesFaultOne : Obligations.UnassignedOpcodeGivesFaultOne := by
  unfold Obligations.UnassignedOpcodeGivesFaultOne
  refine fun w => ⟨?_, resultPort_of_faultPort (c := .illegalOpcode)⟩
  calc faultPort w = 1#2
    _ ↔ decode w = .fault .illegalOpcode := faultPort_eq_faultCodeBits_iff (c := .illegalOpcode)
    _ ↔ opcField w ≠ 0x01#8 ∧ opcField w ≠ 0x02#8 := decode_eq_illegalOpcode_iff
    _ ↔ ¬(opcField w = 0x01#8 ∨ opcField w = 0x02#8) := not_or.symm
    _ ↔ ¬(w.toNat >>> 24 = 0x01 ∨ w.toNat >>> 24 = 0x02) := by rw [opcField_eq_iff, opcField_eq_iff]; rfl

/-- Settles O6: code 2 is the decoder's RESERVED_BITS, whose two cases are the fields of R83. -/
theorem reservedBitGivesFaultTwo : Obligations.ReservedBitGivesFaultTwo := by
  unfold Obligations.ReservedBitGivesFaultTwo
  refine fun w => ⟨?_, resultPort_of_faultPort (c := .reservedBits)⟩
  have code : faultPort w = 2#2 ↔ decode w = .fault .reservedBits :=
    faultPort_eq_faultCodeBits_iff (c := .reservedBits)
  rw [code, decode_eq_reservedBits_iff, opcField_eq_iff, opcField_eq_iff, rsvField_ne_zero_iff, rsv15Field_ne_zero_iff]
  rfl

/-! ### The host's use of RESULT (R86, R106) -/

section UseResult
variable {s : State} {w : CmdWord} {rest : List HostAction}

theorem step_useResult (hs : s.inputs = .useResult :: rest) : step s = hostUseResult { s with inputs := rest } := by
  simp only [step, hs, hostAct]

theorem hostUseResult_of_result {v : ResultWord} (h : s.log.getLast? = some ⟨w, .result v⟩) :
    hostUseResult s = .next s := by
  simp only [hostUseResult, h]

theorem hostUseResult_of_fault {c : FaultCode} (h : s.log.getLast? = some ⟨w, .fault c⟩) :
    hostUseResult s = .fault .resultHasNoValue := by
  simp only [hostUseResult, h]

theorem hostUseResult_of_log_nil (h : s.log = []) : hostUseResult s = .refused .noResponseYet := by
  simp only [hostUseResult, h, List.getLast?_nil]

theorem lastResult_of_getLast? {e : LogEntry} (h : s.log.getLast? = some e) :
    s.lastResult = e.response.resultBits := by
  rw [State.lastResult, h, Option.bind_some]

end UseResult

/-- Settles O39: the step is a use of RESULT, and the last log entry decides what that comes to. -/
theorem useOfResult : Obligations.UseOfResult := by
  unfold Obligations.UseOfResult
  intro s rest hs
  rw [step_useResult hs]
  exact ⟨fun w v hlast => ⟨hostUseResult_of_result hlast, lastResult_of_getLast? hlast⟩,
    fun w c hlast => ⟨hostUseResult_of_fault hlast, lastResult_of_getLast? hlast⟩,
    fun hempty => hostUseResult_of_log_nil hempty⟩

/-! ### Instances side by side (R95, log entry 13) -/

/-- Everything a step of block `k` can do when it goes on: nothing where there is no such block, and otherwise that
block's own step put in its place. -/
theorem System.stepAt_next {sys sys' : System} {k : Nat} (h : sys.stepAt k = .next sys') :
    (sys[k]? = none ∧ sys' = sys) ∨ ∃ s t, sys[k]? = some s ∧ step s = .next t ∧ sys' = sys.set k t := by
  simp only [System.stepAt] at h
  split at h
  · next hk =>
    cases h
    exact .inl ⟨hk, rfl⟩
  · next s hk =>
    split at h <;> cases h
    exact .inr ⟨s, _, hk, ‹_›, rfl⟩

/-- Settles O37: the next system is the old one with at most place `k` written. -/
theorem instancesShareNothing : Obligations.InstancesShareNothing := by
  unfold Obligations.InstancesShareNothing
  intro sys sys' k hstep
  rcases System.stepAt_next hstep with ⟨hk, rfl⟩ | ⟨s, t, hk, ht, rfl⟩
  · exact ⟨rfl, fun _ _ => rfl, fun s hs => absurd (hk.symm.trans hs) (Option.some_ne_none s).symm⟩
  · obtain ⟨hlt, -⟩ := List.getElem?_eq_some_iff.1 hk
    refine ⟨List.length_set, fun j hj => List.getElem?_set_ne hj.symm, fun s' hs' => ?_⟩
    cases hk.symm.trans hs'
    exact ⟨t, ht, List.getElem?_set_self hlt⟩

end Sys2Proof.Machine

/-! PROOFS. The host's runs: how they end, succeed and fail, what the cycles decide, and a command put first (R103 to
R107). -/

namespace Sys2Proof.Machine

/-! ### Which commands enter the fault record (R21, R50, R85) -/

theorem faultEntry_eq_none_iff {e : LogEntry} : e.faultEntry = none ↔ e.response.faultBits = 0#2 := by
  obtain ⟨w, r⟩ := e
  cases r with
  | result v => exact iff_of_true (faultEntry_result w v) rfl
  | fault c => exact iff_of_false (Option.some_ne_none _) (faultCodeBits_ne_zero c)

theorem faultEntry_logged_eq_none_iff {w : CmdWord} : (logged w).faultEntry = none ↔ legalWord w = true :=
  calc (logged w).faultEntry = none
    _ ↔ faultPort w = 0#2 := faultEntry_eq_none_iff
    _ ↔ ∃ i, decode w = .instr i := faultPort_eq_zero_iff_decode
    _ ↔ legalWord w = true := legalWord_iff_decode.symm

theorem endOf_faultRecord_eq_nil_iff (ws : List CmdWord) :
    (State.endOf ws).faultRecord = [] ↔ ∀ w ∈ ws, legalWord w = true := by
  rw [State.endOf, List.filterMap_eq_nil_iff, List.forall_mem_map]
  exact forall₂_congr fun _ _ => faultEntry_logged_eq_none_iff

/-! ### Failed, ended and successful runs (R107, log entry 18) -/

section Run
variable {s : State} {ws : List CmdWord} {n : Nat}

theorem failed_iff : s.failed = true ↔ s.faultRecord ≠ [] := by
  rw [State.failed, Bool.not_eq_true', List.isEmpty_eq_false_iff]

theorem successful_iff : s.successful = true ↔ s.ended = true ∧ s.faultRecord = [] := by
  rw [State.successful, Bool.and_eq_true, List.isEmpty_iff]

/-- Uses of RESULT do not put off the end of a run, commands do. -/
theorem ended_iff_no_command_left (hs : s.inputs = commandList ws ++ List.replicate n .useResult) :
    s.ended = true ↔ ws = [] := by
  rw [State.ended, hs, List.all_append, all_not_presents_commandList, Bool.and_eq_true, List.isEmpty_iff]
  exact and_iff_left (by simp)

theorem endOf_successful_iff (ws : List CmdWord) : (State.endOf ws).successful = true ↔ ∀ w ∈ ws, legalWord w = true :=
  successful_iff.trans ((and_iff_right rfl).trans (endOf_faultRecord_eq_nil_iff ws))

end Run

/-- Settles O35: the run comes to its one end, where success is an empty fault record. -/
theorem runSucceedsIffEveryWordIsLegal : Obligations.RunSucceedsIffEveryWordIsLegal := by
  unfold Obligations.RunSucceedsIffEveryWordIsLegal
  exact fun ws => ⟨State.endOf ws, run_startOf ws, rfl, endOf_successful_iff ws⟩

/-! ### A run over commands and then uses of RESULT, part of the way (R104, R107) -/

/-- The run over `ws` after its first `k` responses: the bookkeeping of a whole run over those `k` words, with the other
commands and then `n` uses of RESULT still to come. -/
def State.afterFirst (k : Nat) (ws : List CmdWord) (n : Nat) : State :=
  { State.endOf (ws.take k) with inputs := commandList (ws.drop k) ++ List.replicate n .useResult }

section AfterFirst
variable {ws : List CmdWord} {n k : Nat}

theorem run_eq_afterFirst (hk : k ≤ ws.length) :
    core.run k { State.reset with inputs := commandList ws ++ List.replicate n .useResult } =
      .next (State.afterFirst k ws n) := by
  have split : commandList ws ++ List.replicate n .useResult =
      commandList (ws.take k) ++ (commandList (ws.drop k) ++ List.replicate n .useResult) := by
    rw [← List.append_assoc, commandList, commandList, commandList, ← List.map_append, List.take_append_drop]
  have answered : core.run (ws.take k).length
      { State.reset with inputs := commandList ws ++ List.replicate n .useResult } =
        .next (State.afterFirst k ws n) := run_commandList (ws.take k) split
  rwa [List.length_take_of_le hk] at answered

theorem afterFirst_log : (State.afterFirst k ws n).log = (ws.take k).map logged := rfl

theorem afterFirst_faultRecord_eq_nil_iff :
    (State.afterFirst k ws n).faultRecord = [] ↔ ∀ w ∈ ws.take k, legalWord w = true :=
  endOf_faultRecord_eq_nil_iff (ws.take k)

theorem afterFirst_ended_iff (hk : k ≤ ws.length) : (State.afterFirst k ws n).ended = true ↔ k = ws.length :=
  calc (State.afterFirst k ws n).ended = true
    _ ↔ ws.drop k = [] := ended_iff_no_command_left rfl
    _ ↔ ws.length ≤ k := List.drop_eq_nil_iff
    _ ↔ k = ws.length := ⟨hk.antisymm, ge_of_eq⟩

theorem afterFirst_failed_iff :
    (State.afterFirst k ws n).failed = true ↔ ∃ w ∈ ws.take k, legalWord w = false := by
  rw [failed_iff, ne_eq, afterFirst_faultRecord_eq_nil_iff]
  simp only [not_forall, exists_prop, Bool.not_eq_true]

theorem afterFirst_successful_iff (hk : k ≤ ws.length) :
    (State.afterFirst k ws n).successful = true ↔ k = ws.length ∧ (State.afterFirst k ws n).faultRecord = [] :=
  successful_iff.trans (and_congr_left' (afterFirst_ended_iff hk))

/-- An ended run has answered every word, so its fault record speaks of them all. -/
theorem afterFirst_successful_iff_legal (hk : k ≤ ws.length) :
    (State.afterFirst k ws n).successful = true ↔ k = ws.length ∧ ∀ w ∈ ws, legalWord w = true := by
  refine (afterFirst_successful_iff hk).trans (and_congr_right fun hlast => ?_)
  rw [afterFirst_faultRecord_eq_nil_iff, hlast, List.take_length]

end AfterFirst

/-- Settles O48: `k` steps come to `State.afterFirst k ws n`, whose fields say the rest. -/
theorem runEndsAtTheLastResponse : Obligations.RunEndsAtTheLastResponse := by
  unfold Obligations.RunEndsAtTheLastResponse
  exact fun ws n k hk => ⟨State.afterFirst k ws n, run_eq_afterFirst hk, afterFirst_log, afterFirst_ended_iff hk,
    afterFirst_failed_iff, afterFirst_successful_iff hk, afterFirst_successful_iff_legal hk⟩

/-! ### What the cycles decide (R103, R104, log entry 6) -/

section Cycles
variable {n u k : Nat}

theorem ofCycles_eq_heldUntilTaken_iff : HostConduct.ofCycles n u k = .heldUntilTaken ↔ n ≤ k ∧ k ≤ u := by
  rw [HostConduct.ofCycles]
  split_ifs with early changed
  · exact iff_of_false nofun fun h => early.not_ge h.1
  · exact iff_of_false nofun fun h => changed.not_ge h.2
  · exact iff_of_true rfl ⟨not_lt.1 early, not_lt.1 changed⟩

theorem ofCycles_eq_takenBeforeReady_iff : HostConduct.ofCycles n u k = .takenBeforeReady ↔ k < n := by
  rw [HostConduct.ofCycles]
  split_ifs with early changed
  · exact iff_of_true rfl early
  · exact iff_of_false nofun early
  · exact iff_of_false nofun early

/-- A command whose response is taken in time is admitted, whatever its word (R104). -/
theorem timed_objection {w : CmdWord} (hready : Config.latency ≤ k) (hheld : k ≤ u) :
    (Presentation.timed w u k).objection = none :=
  objection_of_held rfl (ofCycles_eq_heldUntilTaken_iff.2 ⟨hready, hheld⟩)

end Cycles

/-- Settles O41: the cycles decide only whether a command is admitted, and an admitted word is answered by `respond`. -/
theorem latencyChangesNoResponse : Obligations.LatencyChangesNoResponse := by
  unfold Obligations.LatencyChangesNoResponse
  refine ⟨fun _ _ _ => ofCycles_eq_heldUntilTaken_iff,
    fun _ k hearly => k.not_lt_zero (ofCycles_eq_takenBeforeReady_iff.1 hearly), fun s w u k rest hs hready hheld => ?_⟩
  exact ⟨_, (step_of_admitted hs (timed_objection hready hheld)).trans (runWord_eq_deliver w _), deliver_log ..⟩

/-! ### A command put first (R106, log entry 1) -/

theorem withFetchWord_inputs (s : State) (w : CmdWord) :
    (s.withFetchWord 32 w.toNat).inputs = .present (.proper w) :: s.inputs.tail := by
  rw [State.withFetchWord, fetchSlot, Nat.mod_eq_of_lt w.isLt, BitVec.ofNat_toNat, BitVec.setWidth_eq]

/-- Settles O43: the placed word is presented first and properly, so it is admitted. -/
theorem placedWordRunsNext : Obligations.PlacedWordRunsNext := by
  unfold Obligations.PlacedWordRunsNext
  intro s w
  rw [step_of_admitted (withFetchWord_inputs s w) (proper_objection w), proper_word, State.withFetchWord]

end Sys2Proof.Machine

/-! PROOFS. The wrong pass-through wording (90_conflicts.md C1) and the idle step (log entry 2). -/

namespace Sys2Proof.Machine

/-! ### Where the output bits 10 to 14 and 0 to 4 repeat the input (C1) -/

section PassThrough
variable (c : CgbColor)

/-- Blue is the top field of the colour, so nothing above it is masked away (R68). -/
theorem color_shiftRight_ten : c.toNat >>> 10 = blue5 c := by
  have := c.isLt
  rw [blue5_eq, Nat.shiftRight_eq_div_pow]
  omega

/-- Bits 10 to 14 of the composed word are the low four bits of red over the top bit of green (R73, R75). -/
theorem rgb565_bits_ten_to_fourteen :
    ((rgb565 c).toNat >>> 10) % 32 = (2 * red5 c + green5 c / 16) % 32 := by
  have hg := green5_le c
  have hb := blue5_le c
  have shifted : (red5 c * 2048 + (2 * green5 c + green5 c / 16) * 32 + blue5 c) / 1024 =
      2 * red5 c + green5 c / 16 := by
    omega
  rw [Nat.shiftRight_eq_div_pow, rgb565_toNat, green6_eq_two_mul_add hg, shifted]

end PassThrough

/-- A five-bit value shifted left by one bit, with the bit `t` put in, is itself exactly when all its bits are `t`. -/
theorem two_mul_add_bit_mod_eq_self_iff {r t : Nat} (hr : r ≤ 31) (ht : t ≤ 1) :
    (2 * r + t) % 32 = r ↔ (r = 0 ∧ t = 0) ∨ (r = 31 ∧ t = 1) := by
  omega

/-- Settles O17: the low field asks for blue equal to red, the other for a red whose bits all equal green's top bit. -/
theorem wrongPassThroughHoldsForThirtyTwoColors : Obligations.WrongPassThroughHoldsForThirtyTwoColors := by
  unfold Obligations.WrongPassThroughHoldsForThirtyTwoColors
  intro c
  have hg := green5_le c
  have redBits := two_mul_add_bit_mod_eq_self_iff (t := green5 c / 16) (red5_le c) (by omega)
  rw [rgb565_blue, ← red5_eq, rgb565_bits_ten_to_fourteen, color_shiftRight_ten]
  constructor
  · rintro ⟨blue_eq_red, high⟩
    have := redBits.1 (high.trans blue_eq_red)
    omega
  · rintro (⟨red, blue, low⟩ | ⟨red, blue, high⟩)
    · exact ⟨blue.trans red.symm, (redBits.2 (.inl ⟨red, by omega⟩)).trans (red.trans blue.symm)⟩
    · exact ⟨blue.trans red.symm, (redBits.2 (.inr ⟨red, by omega⟩)).trans (red.trans blue.symm)⟩

/-! ### The idle step (log entry 2) -/

theorem step_of_inputs_nil {s : State} (hs : s.inputs = []) : step s = .next s := by
  rw [step, hs]

/-- Settles O42: with no input the step takes its first branch. -/
theorem idleStepChangesNothing : Obligations.IdleStepChangesNothing := by
  unfold Obligations.IdleStepChangesNothing
  exact fun _ => step_of_inputs_nil

end Sys2Proof.Machine
